-- ==== Sys2Proof/Word.lean ====
section
/-!
DEFINITION. The word types of the block: an 8-bit byte of `BUF` (R22), the 16-bit and 32-bit
operand and result fields (R60, R64), and the 128-bit command and response words (R60, R64).
-/

namespace Sys2Proof

/-- One byte of `BUF` (R22), a sequence number (R20), an 8-bit checksum (R9). -/
abbrev Byte := BitVec 8

/-- A 16-bit quantity: `commandId`, `dataLength`, the trailer checksum (R9), the operand `h` (R60). -/
abbrev Half := BitVec 16

/-- A 32-bit operand `a`, `n`, `d` (R60) or result `r0`, `r1`, `r2` (R64). -/
abbrev Word := BitVec 32

/-- The 6-bit operand `w` of a bit-field operation (R60). -/
abbrev Width := BitVec 6

/-- A command word (R60) or a response word (R64). -/
abbrev Wide := BitVec 128

end Sys2Proof
end

