-- ==== Sys2Proof/Syntax.lean ====
section
/-!
DEFINITION. The ten operations of R5, each with exactly the fields its format reads (R61), in the
order of R72.
-/

namespace Sys2Proof

/-- One constructor per row of the operation map R63. -/
inductive Instr where
  | crc8 (a n : Word)
  | crc16 (a n : Word)
  | vcrc8 (a n : Word)
  | vcrc16 (a n : Word)
  | getbits (a : Word) (h : Half) (w : Width)
  | setbits (v a : Word) (h : Half) (w : Width)
  | getbytes (a n d : Word)
  | setbytes (a n d : Word)
  | fenc (h : Half) (a n d : Word)
  | fdec (a n : Word)
  deriving DecidableEq, Repr

end Sys2Proof
end

