-- ==== Sys2Proof/Decode.lean ====
section
/-!
DEFINITION. The command word (R60), its decoder (R63, R67) and its encoder (R72). A command word is
delivered whole on the command port and has no byte order (R41), so both work on the 128-bit word.
-/

namespace Sys2Proof

/-- Why a word selects no operation. -/
inductive DecodeError where
  /-- `op` is 0x0 or 0xB to 0xF (R67). -/
  | illegalOp (op : BitVec 4)
  deriving DecidableEq, Repr

/-- Field `op`, bits 3:0 (R60). -/
def opField (c : Wide) : BitVec 4 := c.extractLsb' 0 4

/-- Field `w`, bits 9:4 (R60). -/
def wField (c : Wide) : Width := c.extractLsb' 4 6

/-- Field `rsv`, bits 15:10, read by no operation (R60, R61). -/
def rsvField (c : Wide) : BitVec 6 := c.extractLsb' 10 6

/-- Field `h`, bits 31:16 (R60). -/
def hField (c : Wide) : Half := c.extractLsb' 16 16

/-- Field `a`, bits 63:32 (R60). -/
def aField (c : Wide) : Word := c.extractLsb' 32 32

/-- Field `n`, bits 95:64 (R60); the value `v` of SETBITS (R61). -/
def nField (c : Wide) : Word := c.extractLsb' 64 32

/-- Field `d`, bits 127:96 (R60). -/
def dField (c : Wide) : Word := c.extractLsb' 96 32

/-- The instruction a command word asks for (R61, R63), or why it asks for none (R67). `op` alone
decides; the fields outside the operation's format are not looked at. -/
def decode (c : Wide) : Except DecodeError Instr :=
  match (opField c).toNat with
  | 1 => .ok (.crc8 (aField c) (nField c))
  | 2 => .ok (.crc16 (aField c) (nField c))
  | 3 => .ok (.vcrc8 (aField c) (nField c))
  | 4 => .ok (.vcrc16 (aField c) (nField c))
  | 5 => .ok (.getbits (aField c) (hField c) (wField c))
  | 6 => .ok (.setbits (nField c) (aField c) (hField c) (wField c))
  | 7 => .ok (.getbytes (aField c) (nField c) (dField c))
  | 8 => .ok (.setbytes (aField c) (nField c) (dField c))
  | 9 => .ok (.fenc (hField c) (aField c) (nField c) (dField c))
  | 10 => .ok (.fdec (aField c) (nField c))
  | _ => .error (.illegalOp (opField c))

/-- The word with the given fields (R60). -/
def assemble (op : BitVec 4) (w : Width) (rsv : BitVec 6) (h : Half) (a n d : Word) : Wide :=
  d ++ n ++ a ++ h ++ rsv ++ w ++ op

/-- The `op` value of each operation (R63). -/
def opcode (i : Instr) : BitVec 4 :=
  match i with
  | .crc8 _ _ => 0x1
  | .crc16 _ _ => 0x2
  | .vcrc8 _ _ => 0x3
  | .vcrc16 _ _ => 0x4
  | .getbits _ _ _ => 0x5
  | .setbits _ _ _ _ => 0x6
  | .getbytes _ _ _ => 0x7
  | .setbytes _ _ _ => 0x8
  | .fenc _ _ _ _ => 0x9
  | .fdec _ _ => 0xA

/-- The command word of an instruction; a field not written is 0 (R72). -/
def encode (i : Instr) : Wide :=
  match i with
  | .crc8 a n => assemble 0x1 0 0 0 a n 0
  | .crc16 a n => assemble 0x2 0 0 0 a n 0
  | .vcrc8 a n => assemble 0x3 0 0 0 a n 0
  | .vcrc16 a n => assemble 0x4 0 0 0 a n 0
  | .getbits a h w => assemble 0x5 w 0 h a 0 0
  | .setbits v a h w => assemble 0x6 w 0 h a v 0
  | .getbytes a n d => assemble 0x7 0 0 0 a n d
  | .setbytes a n d => assemble 0x8 0 0 0 a n d
  | .fenc h a n d => assemble 0x9 0 0 h a n d
  | .fdec a n => assemble 0xA 0 0 0 a n 0

/-- The bits of the command word that the operation `op` reads: its format (R61), with `op` itself.
No bit of an illegal `op` but `op` is looked at (R67, R205). -/
def formatMask (op : BitVec 4) : Wide :=
  match op.toNat with
  | 1 | 2 | 3 | 4 | 10 => 0x00000000FFFFFFFFFFFFFFFF0000000F
  | 5 => 0x0000000000000000FFFFFFFFFFFF03FF
  | 6 => 0x00000000FFFFFFFFFFFFFFFFFFFF03FF
  | 7 | 8 => 0xFFFFFFFFFFFFFFFFFFFFFFFF0000000F
  | 9 => 0xFFFFFFFFFFFFFFFFFFFFFFFFFFFF000F
  | _ => 0x0000000000000000000000000000000F

/-- The command word whose low `nbits` bits are those of `w`, all others 0. -/
def tableWord (nbits w : Nat) : Wide := BitVec.ofNat 128 (w % 2 ^ nbits)

/-- What the decoder reads from a row of the operation table: bit 0 of `w` is bit 0 of the command
word, and bits from `nbits` upward are 0. -/
def decodeTableWord (nbits w : Nat) : Option Instr :=
  match decode (tableWord nbits w) with
  | .ok i => some i
  | .error _ => none

end Sys2Proof
end

