-- ==== Sys2Proof/Config.lean ====
section
/-!
DEFINITION. The four parameters of the block (R10) as plain data, and the free values: the checksum
functions the spec does not give (R102) and the bytes of `BUF` that nothing has written (R23).
-/

namespace Sys2Proof

/-- Which checksum function an instance has (R10, R102). `standard` is the default of R103 and R104;
`other k` is some function of which nothing is known, one for each `k`.
DESIGN CHOICE (log entry 3), safe: a statement over every choice holds for functions that no proof
can look into. -/
inductive Algorithm where
  | standard
  | other (k : Nat)
  deriving DecidableEq, Repr

/-- The configuration record of R10. It is fixed for the life of an instance (R33); the model carries
it in the state so that statements range over it. DESIGN CHOICE (log entry 2), safe. -/
structure Config where
  /-- `BUF_SIZE`, the number of bytes of `BUF`. -/
  bufSize : Nat
  /-- `CRC8_FN`. -/
  crc8 : Algorithm
  /-- `CRC16_FN`. -/
  crc16 : Algorithm
  /-- `SEQ_PREINC`: whether FENC increments `SEQ` before using it. -/
  seqPreinc : Bool
  deriving DecidableEq, Repr

namespace Config

/-- The defaults of R10. -/
def default : Config :=
  { bufSize := 262144, crc8 := .standard, crc16 := .standard, seqPreinc := false }

/-- Free value: an 8-bit checksum function the spec does not give (R102). -/
opaque otherCrc8 : Nat → List Byte → Byte

/-- Free value: a 16-bit checksum function the spec does not give (R102). -/
opaque otherCrc16 : Nat → List Byte → Half

/-- Free value: the byte at an address that nothing has written since the `epoch`-th RESET
(R23, R240: `any value`, fixed until written). -/
opaque initByte : (epoch : Nat) → (address : Nat) → Byte

end Config

end Sys2Proof
end

