-- ==== Sys2Proof/Machine/State.lean ====
section
/-!
DEFINITION. The state of the block (R34), with the inputs and outputs of the host interface (R222)
beside it as plain data.
-/

namespace Sys2Proof.Machine

/-- The written bytes of `BUF`: (address, byte) pairs, addresses strictly rising. An address that is
not listed has not been written since the last RESET (R23). -/
abbrev Memory := List Host.Cell

/-- Which checksum an error event is about (R24, R66). -/
inductive EventKind where
  | crc8
  | crc16
  deriving DecidableEq, Repr

/-- An error event `(kind, seq)` (R24). -/
structure ErrEvent where
  kind : EventKind
  seq : Byte
  deriving DecidableEq, Repr

/-- The outcome codes of R200. The codes that are never produced have no constructor (R200, U10). -/
inductive Status where
  | ok
  | rejSof
  | rejCrc8
  | rejCrc16
  | rejTrunc
  | errOp
  | errArg
  | errRange
  deriving DecidableEq, Repr

/-- A response: a status and three results (R64). -/
structure Response where
  status : Status
  r0 : Word
  r1 : Word
  r2 : Word
  deriving DecidableEq, Repr

/-- What one step delivers to the host (R64, R222). -/
inductive Delivery where
  /-- Nothing: after reset, HWRITE and RESET. -/
  | nothing
  /-- The response to a command (R224). -/
  | response (r : Response)
  /-- The bytes an HREAD reads (R222). -/
  | bytes (bs : List Byte)
  /-- The event an HERR reads, `none` when every event has been read (log entry 9). -/
  | event (e : Option ErrEvent)
  deriving DecidableEq, Repr

/-- What the host can do between commands (R222, R73). -/
inductive HostAction where
  /-- Issue one command word and receive its response. -/
  | command (c : Wide)
  /-- `HWRITE addr, bytes`. -/
  | hwrite (addr : Nat) (bytes : List Byte)
  /-- `HREAD addr, n`. -/
  | hread (addr n : Nat)
  /-- `HERR`: read the oldest unread event of `ERRLOG`. -/
  | herr
  /-- `RESET` (R240). -/
  | reset
  deriving DecidableEq, Repr

/-- The block has no fault: nothing traps, nothing is stuck, every command ends with a status
(R210, R247). So no constructor. -/
inductive Fault where
  deriving DecidableEq, Repr

/-- Why a step has no meaning. -/
inductive Refusal where
  /-- Raised by an arm of `exec` whose instruction has no meaning yet: none is left. Safe. -/
  | notModelled (mnemonic : String)
  /-- Raised by the host actions HWRITE and HREAD on a range that leaves `BUF`: "A host access
  outside `BUF` is refused: it has no move in the model" (R222). Safe: the model stops. -/
  | hostAccessOutsideBuf
  deriving DecidableEq, Repr

/-- The state of the block: `SEQ`, `BUF`, `ERRLOG` (R34), and beside them the configuration (R10) and
the two sides of the host interface (R222). -/
structure State where
  /-- `SEQ`, the outbound sequence counter (R20). -/
  seq : Byte
  /-- `BUF`, the bytes written since the last RESET (R22, R23). -/
  buf : Memory
  /-- `ERRLOG`, oldest event first (R24). -/
  errlog : List ErrEvent
  /-- How many events of `ERRLOG` the host has read (R222). -/
  errRead : Nat
  /-- What the step just taken delivered to the host: an output, read by no operation (R25). -/
  out : Delivery
  /-- What the host will do, next action first: the input of the coming steps (R27, R33). -/
  script : List HostAction
  /-- The model's own field: how many RESET actions have happened, so that the unwritten bytes are
  free anew after each (R240). -/
  epoch : Nat
  /-- The configuration (R10), which no step changes (R33, R241). -/
  cfg : Config
  deriving DecidableEq, Repr

/-- The block at power-on (R34, R240) with the default configuration (R10) and a host that has
nothing to do yet. -/
def State.reset : State :=
  { seq := 0, buf := [], errlog := [], errRead := 0, out := .nothing, script := [], epoch := 0,
    cfg := Config.default }

/-- What a meaning answers. -/
abbrev Result := Host.Outcome State Fault Refusal

end Sys2Proof.Machine
end

