-- ==== Sys2Proof/Machine/Ops.lean ====
section
/-!
DEFINITION. The shared operations: reading and writing `BUF` (R15), the range check (R46), ending a
command (R16) and emitting an error event (R16, R24).
-/

namespace Sys2Proof.Machine

/-- The canonical form of a memory: addresses strictly rising. -/
abbrev Memory.wf (m : Memory) : Prop := m.Pairwise (fun x y => x.1 < y.1)

/-- The cells of a byte sequence stored from `addr` upward. -/
def Memory.cellsFrom (addr : Nat) : List Byte → Memory
  | [] => []
  | b :: rest => (addr, b) :: Memory.cellsFrom (addr + 1) rest

/-- `MemWrite(addr, len(bytes), bytes)` on the listed bytes (R15): the cells below the range, the
range, the cells above it. -/
def Memory.write (m : Memory) (addr : Nat) (bytes : List Byte) : Memory :=
  m.filter (fun cell => decide (cell.1 < addr)) ++ Memory.cellsFrom addr bytes
    ++ m.filter (fun cell => decide (addr + bytes.length ≤ cell.1))

/-- The byte listed at an address, if it has been written. -/
def Memory.read? : Memory → Nat → Option Byte
  | [], _ => none
  | (y, b) :: rest, x => if x = y then some b else Memory.read? rest x

/-- `BUF[x]` (R15): the byte written last, and where nothing has been written a free value that is
fixed until written (R23). -/
def State.byteAt (s : State) (x : Nat) : Byte :=
  match s.buf.read? x with
  | some b => b
  | none => Config.initByte s.epoch x

/-- `MemRead(addr, n)` (R15). -/
def State.memRead (s : State) (addr : Nat) : Nat → List Byte
  | 0 => []
  | n + 1 => s.byteAt addr :: s.memRead (addr + 1) n

/-- `MemWrite(addr, len(bytes), bytes)` (R15). -/
def State.memWrite (s : State) (addr : Nat) (bytes : List Byte) : State :=
  { s with buf := s.buf.write addr bytes }

/-- `bit(P)`: absolute bit `P` of `BUF`, least significant bit of a byte first (R15, R43). -/
def State.bitAt (s : State) (P : Nat) : Bool := (s.byteAt (P / 8)).getLsbD (P % 8)

/-- The range check: `base + len ≤ BUF_SIZE` in the naturals (R46). -/
abbrev State.inRange (s : State) (base len : Nat) : Prop := base + len ≤ s.cfg.bufSize

/-- `done(S; v0, v1, v2)` (R16). -/
def State.done (s : State) (status : Status) (v0 v1 v2 : Word) : State :=
  { s with out := .response { status := status, r0 := v0, r1 := v1, r2 := v2 } }

/-- `raise S` (R16): no state changes, all results are 0. The one way a command is refused. -/
def State.raise (s : State) (status : Status) : State := s.done status 0 0 0

/-- `emit ERR(kind, seq)` (R16, R24): one event at the end of `ERRLOG`. -/
def State.emit (s : State) (kind : EventKind) (seq : Byte) : State :=
  { s with errlog := s.errlog ++ [{ kind := kind, seq := seq }] }

/-- `SEQ <- (SEQ + 1) mod 256` (R21). -/
def State.bumpSeq (s : State) : State := { s with seq := s.seq + 1 }

/-- The action `RESET` (R240): `SEQ` and `ERRLOG` as after power-on, every byte of `BUF` unspecified
anew, no response pending (R34, R241), the configuration and what the host will do unchanged. -/
def State.resetAction (s : State) : State :=
  { seq := 0, buf := [], errlog := [], errRead := 0, out := .nothing, script := s.script,
    epoch := s.epoch + 1, cfg := s.cfg }

end Sys2Proof.Machine
end

