-- ==== Sys2Proof/Machine/Operands.lean ====
section
/-!
DEFINITION. Operand assembly: 16-bit values and their bytes (R14, R40), the position of a bit field
(R121), reading and writing a bit field (R122, R124).
-/

namespace Sys2Proof.Machine

/-- `le16(b0, b1)`: low byte first (R14). -/
def le16 (b0 b1 : Byte) : Half := b1 ++ b0

/-- `lo8(v) = v[7:0]` (R14). -/
def lo8 (v : Half) : Byte := v.extractLsb' 0 8

/-- `hi8(v) = v[15:8]` (R14). -/
def hi8 (v : Half) : Byte := v.extractLsb' 8 8

/-- The absolute bit position `P = 8*a + h`, in the naturals (R62, R121). -/
def bitPos (a : Word) (h : Half) : Nat := 8 * a.toNat + h.toNat

/-- `B0 = P div 8`, the first byte a field touches (R121). -/
def firstByte (P : Nat) : Nat := P / 8

/-- `B1 = (P + w - 1) div 8`, the last byte a field of width `w ≥ 1` touches (R121). -/
def lastByte (P w : Nat) : Nat := (P + w - 1) / 8

/-- `k = B1 - B0 + 1`, how many bytes a field touches (R43, R124). -/
def touched (P w : Nat) : Nat := lastByte P w - firstByte P + 1

/-- The unsigned value of the `w` absolute bits from `P`: the sum over `i` of `bit(P + i) * 2^i`
(R43, R122). -/
def State.fieldValue (s : State) (P : Nat) : Nat → Nat
  | 0 => 0
  | w + 1 => (s.bitAt P).toNat + 2 * s.fieldValue (P + 1) w

/-- The little-endian integer of a byte sequence: the sum over `j` of `bytes[j] * 256^j` (R43). -/
def leNat : List Byte → Nat
  | [] => 0
  | b :: rest => b.toNat + 256 * leNat rest

/-- The low `k` bytes of `X`, least significant first: byte `j` is `(X >> 8j) mod 256` (R124). -/
def leBytes : Nat → Nat → List Byte
  | 0, _ => []
  | k + 1, X => BitVec.ofNat 8 X :: leBytes k (X / 256)

/-- `X' = (X and not M) or (t * 2^sh)` on `8*k`-bit values, with `M = (2^w - 1) * 2^sh` (R124). -/
def mergeField (k sh w X t : Nat) : Nat :=
  (X &&& ((2 ^ (8 * k) - 1) ^^^ ((2 ^ w - 1) * 2 ^ sh))) ||| (t * 2 ^ sh)

/-- The bytes from `B0` after `v mod 2^w` is stored in the `w` absolute bits from `P` (R124, R125).
All reads are of the state before (R49). -/
def State.fieldBytes (s : State) (P w v : Nat) : List Byte :=
  leBytes (touched P w)
    (mergeField (touched P w) (P % 8) w (leNat (s.memRead (firstByte P) (touched P w))) (v % 2 ^ w))

end Sys2Proof.Machine
end

