-- ==== Sys2Proof/WellFormed.lean ====
section
/-!
DEFINITION. Which field values are legal for a legal `op` (R68). An instruction that is not well
formed still has a meaning: it ends with `ERR_ARG` (R68, R205).
-/

namespace Sys2Proof

/-- The legal widths of a bit field: 1 to 32 (R68). -/
abbrev legalWidth (w : Width) : Prop := 1 ≤ w.toNat ∧ w.toNat ≤ 32

/-- The legal data lengths of FENC: 0 to 65535 (R68). -/
abbrev legalLength (n : Word) : Prop := n.toNat ≤ 65535

/-- Every field value is legal in itself (R68). Addresses and counts are judged by the range check
alone (R46). -/
abbrev Instr.WellFormed (i : Instr) : Prop :=
  match i with
  | .crc8 _ _ => True
  | .crc16 _ _ => True
  | .vcrc8 _ _ => True
  | .vcrc16 _ _ => True
  | .getbits _ _ w => legalWidth w
  | .setbits _ _ _ w => legalWidth w
  | .getbytes _ _ _ => True
  | .setbytes _ _ _ => True
  | .fenc _ _ n _ => legalLength n
  | .fdec _ _ => True

end Sys2Proof
end

