-- ==== Sys2Proof/Machine/BitField.lean ====
section
/-!
DEFINITION. The Bit-Field Codec: GETBITS, SETBITS (R120 to R126), GETBYTES, SETBYTES (R128, R129).
-/

namespace Sys2Proof.Machine

/-- GETBITS (R122). -/
def execGetbits (a : Word) (h : Half) (w : Width) (s : State) : Result :=
  if ¬ legalWidth w then .next (s.raise .errArg)
  else if s.cfg.bufSize ≤ lastByte (bitPos a h) w.toNat then .next (s.raise .errRange)
  else .next (s.done .ok (BitVec.ofNat 32 (s.fieldValue (bitPos a h) w.toNat)) 0 0)

/-- SETBITS (R124). -/
def execSetbits (v a : Word) (h : Half) (w : Width) (s : State) : Result :=
  if ¬ legalWidth w then .next (s.raise .errArg)
  else if s.cfg.bufSize ≤ lastByte (bitPos a h) w.toNat then .next (s.raise .errRange)
  else
    let bytes := s.fieldBytes (bitPos a h) w.toNat v.toNat
    .next ((s.memWrite (firstByte (bitPos a h)) bytes).done .ok 0 0 0)

/-- The copy of `n` bytes from `a` to `d`: all reads first (R49), then all writes (R128, R129). -/
def copyBytes (a n d : Word) (s : State) : Result :=
  if ¬ s.inRange a.toNat n.toNat ∨ ¬ s.inRange d.toNat n.toNat then .next (s.raise .errRange)
  else
    let bytes := s.memRead a.toNat n.toNat
    .next ((s.memWrite d.toNat bytes).done .ok 0 0 0)

/-- GETBYTES (R128): `a` is inside the packed record, `d` is where the bytes go. -/
def execGetbytes (a n d : Word) (s : State) : Result := copyBytes a n d s

/-- SETBYTES (R129): `a` is where the bytes come from, `d` is inside the packed record. -/
def execSetbytes (a n d : Word) (s : State) : Result := copyBytes a n d s

end Sys2Proof.Machine
end

