-- ==== Sys2Proof/Machine/Crc.lean ====
section
/-!
DEFINITION. The checksum functions: the default `CRC8_FN` and `CRC16_FN` (R103, R104) and the
functions `C8` and `C16` of a configuration (R17).
-/

namespace Sys2Proof.Machine

/-- One bit of a reflected CRC with reversed polynomial `poly`: shift right, and apply the polynomial
when a 1 is shifted out (the inner line of R103 and R104). -/
def crcBit {k : Nat} (poly c : BitVec k) : BitVec k :=
  if c.getLsbD 0 then (c >>> 1) ^^^ poly else c >>> 1

/-- `times` bits. -/
def crcBits {k : Nat} (poly : BitVec k) : Nat → BitVec k → BitVec k
  | 0, c => c
  | times + 1, c => crcBits poly times (crcBit poly c)

/-- One byte of the checksum: xor it into the low bits, then eight bit steps (R103, R104). -/
def crcByte {k : Nat} (poly c : BitVec k) (b : Byte) : BitVec k :=
  crcBits poly 8 (c ^^^ b.setWidth k)

/-- The checksum of a byte sequence in increasing index order from the value `init` (R103, R104). -/
def crcFrom {k : Nat} (poly init : BitVec k) (bytes : List Byte) : BitVec k :=
  bytes.foldl (crcByte poly) init

/-- The default `CRC8_FN` (R103). PRESUMED (log entry 4): from general knowledge, as the spec says. -/
def crc8Standard (bytes : List Byte) : Byte := crcFrom 0x8C 0xFF bytes

/-- The default `CRC16_FN` (R104). PRESUMED (log entry 4): from general knowledge, as the spec says. -/
def crc16Standard (bytes : List Byte) : Half := crcFrom 0x8408 0xFFFF bytes

/-- `C8`: the 8-bit checksum function of a configuration (R10, R17). -/
def c8 (cfg : Config) (bytes : List Byte) : Byte :=
  match cfg.crc8 with
  | .standard => crc8Standard bytes
  | .other k => Config.otherCrc8 k bytes

/-- `C16`: the 16-bit checksum function of a configuration (R10, R17). -/
def c16 (cfg : Config) (bytes : List Byte) : Half :=
  match cfg.crc16 with
  | .standard => crc16Standard bytes
  | .other k => Config.otherCrc16 k bytes

end Sys2Proof.Machine
end

