-- ==== Sys2Proof/Machine/Flags.lean ====
section
/-!
DEFINITION. The block has no flags (R28). What stands in their place: the boolean result of a
verification (R107, R108), the sequence number in `r2` (R64), and the codes and words on the response
port and the error port (R64, R66, R200).
-/

namespace Sys2Proof.Machine

/-- The result of a verification: 1 on a match, else 0 (R107, R108). -/
def matchWord (matched : Bool) : Word := if matched then 1 else 0

/-- `seq * 2^16`, the sequence number as `r2[23:16]` (R64, R65). -/
def seqWord (q : Byte) : Word := q.setWidth 32 <<< 16

/-- The 4-bit code of a status (R200). -/
def statusCode (status : Status) : BitVec 4 :=
  match status with
  | .ok => 0x0
  | .rejSof => 0x1
  | .rejCrc8 => 0x2
  | .rejCrc16 => 0x3
  | .rejTrunc => 0x4
  | .errOp => 0x8
  | .errArg => 0x9
  | .errRange => 0xA

/-- The response word: `status`, 28 zero bits, `r0`, `r1`, `r2` (R64). -/
def responseWord (r : Response) : Wide :=
  r.r2 ++ r.r1 ++ r.r0 ++ (0 : BitVec 28) ++ statusCode r.status

/-- `kind` as carried on the error port: 0 for CRC8, 1 for CRC16 (R66). -/
def kindBit (kind : EventKind) : BitVec 1 :=
  match kind with
  | .crc8 => 0
  | .crc16 => 1

/-- The error event word: `seq`, `kind`, seven zero bits (R66). -/
def eventWord (e : ErrEvent) : Half := (0 : BitVec 7) ++ kindBit e.kind ++ e.seq

/-- The interface errors of R202: the block refuses the command whole. -/
def isInterfaceError (status : Status) : Bool :=
  match status with
  | .ok => false
  | .rejSof => false
  | .rejCrc8 => false
  | .rejCrc16 => false
  | .rejTrunc => false
  | .errOp => true
  | .errArg => true
  | .errRange => true

/-- The event a status puts on the error port: only the two checksum rejections have one (R204). -/
def eventKindOf (status : Status) : Option EventKind :=
  match status with
  | .ok => none
  | .rejSof => none
  | .rejCrc8 => some .crc8
  | .rejCrc16 => some .crc16
  | .rejTrunc => none
  | .errOp => none
  | .errArg => none
  | .errRange => none

end Sys2Proof.Machine
end

