-- ==== Sys2Proof/Machine/Checksum.lean ====
section
/-!
DEFINITION. The Checksum Engine: CRC8, CRC16, VCRC8, VCRC16 (R100, R105 to R108).
-/

namespace Sys2Proof.Machine

/-- CRC8 (R105). -/
def execCrc8 (a n : Word) (s : State) : Result :=
  if ¬ s.inRange a.toNat n.toNat then .next (s.raise .errRange)
  else .next (s.done .ok ((c8 s.cfg (s.memRead a.toNat n.toNat)).setWidth 32) 0 0)

/-- CRC16 (R106). -/
def execCrc16 (a n : Word) (s : State) : Result :=
  if ¬ s.inRange a.toNat n.toNat then .next (s.raise .errRange)
  else .next (s.done .ok ((c16 s.cfg (s.memRead a.toNat n.toNat)).setWidth 32) 0 0)

/-- VCRC8 (R107): the stored byte is the one after the checked range. -/
def execVcrc8 (a n : Word) (s : State) : Result :=
  if ¬ s.inRange a.toNat (n.toNat + 1) then .next (s.raise .errRange)
  else
    let stored := s.byteAt (a.toNat + n.toNat)
    .next (s.done .ok (matchWord (c8 s.cfg (s.memRead a.toNat n.toNat) == stored)) 0 0)

/-- VCRC16 (R108): the stored value is the two bytes after the checked range, low byte first. -/
def execVcrc16 (a n : Word) (s : State) : Result :=
  if ¬ s.inRange a.toNat (n.toNat + 2) then .next (s.raise .errRange)
  else
    let stored := le16 (s.byteAt (a.toNat + n.toNat)) (s.byteAt (a.toNat + n.toNat + 1))
    .next (s.done .ok (matchWord (c16 s.cfg (s.memRead a.toNat n.toNat) == stored)) 0 0)

end Sys2Proof.Machine
end

