-- ==== Sys2Proof/Machine/Frame.lean ====
section
/-!
DEFINITION. The Inner Frame Codec: FENC and FDEC (R140 to R154) over the wire format of R69.
-/

namespace Sys2Proof.Machine

/-- The start-of-frame marker (R9). -/
def sof : Byte := 0xA5

/-- The sequence number a frame carries, `seq_used` (R142). -/
def seqUsed (s : State) : Byte := if s.cfg.seqPreinc then s.seq + 1 else s.seq

/-- The checked part of the header: `sof`, `dataLength` low byte first, `seq` (R69, R71). -/
def frameHeader (len : Half) (q : Byte) : List Byte := [sof, lo8 len, hi8 len, q]

/-- Every byte of the frame but the trailer: header, header checksum, `commandId` low byte first,
data (R69). -/
def frameBody (cfg : Config) (h : Half) (len : Half) (q : Byte) (data : List Byte) : List Byte :=
  frameHeader len q ++ [c8 cfg (frameHeader len q)] ++ [lo8 h, hi8 h] ++ data

/-- The whole frame: the body and its 16-bit checksum low byte first (R69, R143). -/
def frameBytes (cfg : Config) (h : Half) (len : Half) (q : Byte) (data : List Byte) : List Byte :=
  frameBody cfg h len q data
    ++ [lo8 (c16 cfg (frameBody cfg h len q data)), hi8 (c16 cfg (frameBody cfg h len q data))]

/-- FENC (R143). -/
def execFenc (h : Half) (a n d : Word) (s : State) : Result :=
  if ¬ legalLength n then .next (s.raise .errArg)
  else if ¬ s.inRange a.toNat n.toNat ∨ ¬ s.inRange d.toNat (9 + n.toNat) then
    .next (s.raise .errRange)
  else
    let data := s.memRead a.toNat n.toNat
    let q := seqUsed s
    let frame := frameBytes s.cfg h (n.setWidth 16) q data
    .next (((s.memWrite d.toNat frame).bumpSeq).done .ok (9 + n) d (seqWord q))

/-- FDEC (R147): the tests in the order of R205, the first that applies ending the command. -/
def execFdec (a n : Word) (s : State) : Result :=
  let A := a.toNat
  let N := n.toNat
  if ¬ s.inRange A N then .next (s.raise .errRange)
  else if N < 1 ∨ s.byteAt A ≠ sof then .next (s.done .rejSof 0 0 0)
  else if N < 5 then .next (s.done .rejTrunc 0 0 0)
  else
    let q := s.byteAt (A + 3)
    if c8 s.cfg (s.memRead A 4) ≠ s.byteAt (A + 4) then
      .next ((s.emit .crc8 q).done .rejCrc8 0 0 (seqWord q))
    else
      let L := le16 (s.byteAt (A + 1)) (s.byteAt (A + 2))
      if N < 9 + L.toNat then .next (s.done .rejTrunc 0 0 0)
      else
        let cid := le16 (s.byteAt (A + 5)) (s.byteAt (A + 6))
        let trailer := le16 (s.byteAt (A + 7 + L.toNat)) (s.byteAt (A + 8 + L.toNat))
        if c16 s.cfg (s.memRead A (7 + L.toNat)) ≠ trailer then
          .next ((s.emit .crc16 q).done .rejCrc16 0 0 (seqWord q))
        else .next (s.done .ok (cid.setWidth 32) (a + 7) (L.setWidth 32 + seqWord q))

end Sys2Proof.Machine
end

