-- ==== Sys2Proof/Machine/Dispatch.lean ====
section
/-!
DEFINITION. One arm per operation of R63.
-/

namespace Sys2Proof.Machine

/-- The meaning of each instruction. -/
def exec (i : Instr) (s : State) : Host.Outcome State Fault Refusal :=
  match i with
  | .crc8 a n => Sys2Proof.Machine.execCrc8 a n s
  | .crc16 a n => Sys2Proof.Machine.execCrc16 a n s
  | .vcrc8 a n => Sys2Proof.Machine.execVcrc8 a n s
  | .vcrc16 a n => Sys2Proof.Machine.execVcrc16 a n s
  | .getbits a h w => Sys2Proof.Machine.execGetbits a h w s
  | .setbits v a h w => Sys2Proof.Machine.execSetbits v a h w s
  | .getbytes a n d => Sys2Proof.Machine.execGetbytes a n d s
  | .setbytes a n d => Sys2Proof.Machine.execSetbytes a n d s
  | .fenc h a n d => Sys2Proof.Machine.execFenc h a n d s
  | .fdec a n => Sys2Proof.Machine.execFdec a n s

end Sys2Proof.Machine
end

