-- ==== Sys2Proof/Machine/Issue.lean ====
section
/-!
DEFINITION. Issuing a command (R222, R67) and the other host actions (R222, R240), and taking the
next action of the host.
-/

namespace Sys2Proof.Machine

/-- The host issues a command word: the operation it selects runs, and a word that selects none ends
with `ERR_OP` and changes nothing (R67, R205). -/
def issue (c : Wide) (s : State) : Result :=
  match decode c with
  | .ok i => exec i s
  | .error _ => .next (s.raise .errOp)

/-- `HWRITE addr, bytes` (R222). -/
def hostWrite (addr : Nat) (bytes : List Byte) (s : State) : Result :=
  if ¬ s.inRange addr bytes.length then .refused .hostAccessOutsideBuf
  else .next { s.memWrite addr bytes with out := .nothing }

/-- `HREAD addr, n` (R222). -/
def hostRead (addr n : Nat) (s : State) : Result :=
  if ¬ s.inRange addr n then .refused .hostAccessOutsideBuf
  else .next { s with out := .bytes (s.memRead addr n) }

/-- `HERR` (R222): the oldest unread event; the record keeps it. With no unread event it delivers
none. DESIGN CHOICE (log entry 9). -/
def hostErr (s : State) : Result :=
  match s.errlog[s.errRead]? with
  | some e => .next { s with out := .event (some e), errRead := s.errRead + 1 }
  | none => .next { s with out := .event none }

/-- One host action (R222). -/
def perform (action : HostAction) (s : State) : Result :=
  match action with
  | .command c => issue c s
  | .hwrite addr bytes => hostWrite addr bytes s
  | .hread addr n => hostRead addr n s
  | .herr => hostErr s
  | .reset => .next s.resetAction

/-- Take the host's next action off the script and do it, whole (R48, R52). A host with nothing to do
leaves the block as it is: it never initiates anything and never ends (R224; log entry 8). -/
def takeNext (s : State) : Result :=
  match s.script with
  | [] => .next s
  | action :: rest => perform action { s with script := rest }

/-- The state whose next host action is to issue the command word `c`. -/
def withCommand (s : State) (c : Wide) : State := { s with script := .command c :: s.script }

end Sys2Proof.Machine
end

