-- ==== Sys2Proof/Machine/Step.lean ====
section
/-!
DEFINITION. One step: the host's next action (R27, R48, R222).
-/

namespace Sys2Proof.Machine

/-- One step of the machine. -/
def step (s : State) : Host.Outcome State Fault Refusal := takeNext s

/-- The state whose next step issues the command word that `w` gives in the table's numbering. -/
def State.withFetchWord (s : State) (nbits w : Nat) : State := withCommand s (tableWord nbits w)

end Sys2Proof.Machine
end

