-- ==== Sys2Proof/Safety.lean ====
section
/-!
DEFINITION. The terms in which claims are made: what the checksum functions must satisfy (R101), the
legal configurations (R10), the invariant of the state, and, for each instruction, the byte ranges it
reads, writes and checks (R35, R45, R46).
-/

namespace Sys2Proof.Machine

/-- `s'` differs from `s` in exactly one bit (P1 of R101). -/
def OneBitChanged (s s' : List Byte) : Prop :=
  ∃ i j, i < s.length ∧ j < 8 ∧ s' = s.modify i (fun b => b ^^^ (1#8 <<< j))

/-- `s'` differs from `s` in exactly one byte position (P2 of R101). -/
def OneByteChanged (s s' : List Byte) : Prop :=
  ∃ i b, i < s.length ∧ s[i]? ≠ some b ∧ s' = s.set i b

/-- What R101 asks of the two checksum functions of a configuration: P1 and P2. P0 holds of every
Lean function. -/
structure ChecksumsDetect (cfg : Config) : Prop where
  /-- P1 for `C8`. -/
  bit8 : ∀ s s', OneBitChanged s s' → c8 cfg s' ≠ c8 cfg s
  /-- P1 for `C16`. -/
  bit16 : ∀ s s', OneBitChanged s s' → c16 cfg s' ≠ c16 cfg s
  /-- P2 for `C8`: sequences of length 4. -/
  byte8 : ∀ s s', s.length = 4 → OneByteChanged s s' → c8 cfg s' ≠ c8 cfg s
  /-- P2 for `C16`: sequences of length 7 to 65542. -/
  byte16 : ∀ s s', 7 ≤ s.length → s.length ≤ 65542 → OneByteChanged s s' → c16 cfg s' ≠ c16 cfg s

/-- The configurations of R10: the bounds of `BUF_SIZE` and the obligations of R101. -/
structure ConfigValid (cfg : Config) : Prop where
  bufSize_ge : 9 ≤ cfg.bufSize
  bufSize_le : cfg.bufSize ≤ 2 ^ 32
  detect : ChecksumsDetect cfg

/-- The results a response may carry beside its status (R64): none with an interface error, `REJ_SOF`
or `REJ_TRUNC`; a sequence number in `r2` alone with a checksum rejection. -/
def Response.Lawful (r : Response) : Prop :=
  match r.status with
  | .ok => True
  | .rejCrc8 => r.r0 = 0 ∧ r.r1 = 0 ∧ ∃ q, r.r2 = seqWord q
  | .rejCrc16 => r.r0 = 0 ∧ r.r1 = 0 ∧ ∃ q, r.r2 = seqWord q
  | .rejSof => r.r0 = 0 ∧ r.r1 = 0 ∧ r.r2 = 0
  | .rejTrunc => r.r0 = 0 ∧ r.r1 = 0 ∧ r.r2 = 0
  | .errOp => r.r0 = 0 ∧ r.r1 = 0 ∧ r.r2 = 0
  | .errArg => r.r0 = 0 ∧ r.r1 = 0 ∧ r.r2 = 0
  | .errRange => r.r0 = 0 ∧ r.r1 = 0 ∧ r.r2 = 0

/-- What every step keeps: the memory is in canonical form and lies below `BUF_SIZE` (R22, R50), the
host has read no more events than there are (R222), and the last response is lawful (R64). -/
structure State.Inv (s : State) : Prop where
  buf_wf : s.buf.wf
  buf_below : ∀ cell ∈ s.buf, cell.1 < s.cfg.bufSize
  errRead_le : s.errRead ≤ s.errlog.length
  out_lawful : ∀ r, s.out = .response r → r.Lawful

/-- The bytes an instruction reads, as (base, length) (R35, R45). For FDEC the whole available range,
of which it reads a prefix. -/
def readRange (i : Instr) : Nat × Nat :=
  match i with
  | .crc8 a n => (a.toNat, n.toNat)
  | .crc16 a n => (a.toNat, n.toNat)
  | .vcrc8 a n => (a.toNat, n.toNat + 1)
  | .vcrc16 a n => (a.toNat, n.toNat + 2)
  | .getbits a h w => (firstByte (bitPos a h), touched (bitPos a h) w.toNat)
  | .setbits _ a h w => (firstByte (bitPos a h), touched (bitPos a h) w.toNat)
  | .getbytes a n _ => (a.toNat, n.toNat)
  | .setbytes a n _ => (a.toNat, n.toNat)
  | .fenc _ a n _ => (a.toNat, n.toNat)
  | .fdec a n => (a.toNat, n.toNat)

/-- The bytes an instruction writes when it ends `OK`, as (base, length), if it writes any
(R35, R45). -/
def writeRange (i : Instr) : Option (Nat × Nat) :=
  match i with
  | .crc8 _ _ => none
  | .crc16 _ _ => none
  | .vcrc8 _ _ => none
  | .vcrc16 _ _ => none
  | .getbits _ _ _ => none
  | .setbits _ a h w => some (firstByte (bitPos a h), touched (bitPos a h) w.toNat)
  | .getbytes _ n d => some (d.toNat, n.toNat)
  | .setbytes _ n d => some (d.toNat, n.toNat)
  | .fenc _ _ n d => some (d.toNat, 9 + n.toNat)
  | .fdec _ _ => none

/-- Every byte the instruction could touch lies in `BUF` (R46): both ranges pass the range check. -/
def FitsBuf (i : Instr) (s : State) : Prop :=
  s.inRange (readRange i).1 (readRange i).2 ∧ ∀ r, writeRange i = some r → s.inRange r.1 r.2

/-- Two states agree on the bytes of a range. -/
def AgreeOn (s s' : State) (base len : Nat) : Prop :=
  ∀ x, base ≤ x → x < base + len → s.byteAt x = s'.byteAt x

/-- The status a result carries, if it is a next state that delivers a response. -/
def statusOf (r : Result) : Option Status :=
  match r with
  | .next t =>
    match t.out with
    | .response resp => some resp.status
    | .nothing => none
    | .bytes _ => none
    | .event _ => none
  | .fault _ => none
  | .refused _ => none

/-- The statuses R206 marks for an operation. -/
def possibleStatuses (i : Instr) : List Status :=
  match i with
  | .crc8 _ _ => [.ok, .errRange]
  | .crc16 _ _ => [.ok, .errRange]
  | .vcrc8 _ _ => [.ok, .errRange]
  | .vcrc16 _ _ => [.ok, .errRange]
  | .getbits _ _ _ => [.ok, .errArg, .errRange]
  | .setbits _ _ _ _ => [.ok, .errArg, .errRange]
  | .getbytes _ _ _ => [.ok, .errRange]
  | .setbytes _ _ _ => [.ok, .errRange]
  | .fenc _ _ _ _ => [.ok, .errArg, .errRange]
  | .fdec _ _ => [.ok, .rejSof, .rejCrc8, .rejCrc16, .rejTrunc, .errRange]

/-- Whether the step from `s` is a FENC that ends `OK` (R145). -/
def builtFrame (s : State) : Bool :=
  match s.script with
  | .command c :: _ =>
    match decode c with
    | .ok (.fenc _ _ _ _) => statusOf (step s) == some .ok
    | _ => false
  | _ => false

/-- How many of the next `k` steps from `s` build a frame (R145). -/
def framesBuilt : Nat → State → Nat
  | 0, _ => 0
  | k + 1, s =>
    (if builtFrame s then 1 else 0)
      + match step s with
        | .next t => framesBuilt k t
        | .fault _ => 0
        | .refused _ => 0

/-- One field to pack: the operands of a SETBITS. -/
structure FieldWrite where
  v : Word
  a : Word
  h : Half
  w : Width
  deriving DecidableEq, Repr

/-- The absolute bits of a field, as (first, one past the last) (R121). -/
def FieldWrite.bits (f : FieldWrite) : Nat × Nat :=
  (bitPos f.a f.h, bitPos f.a f.h + f.w.toNat)

/-- Two fields share no absolute bit. -/
abbrev FieldWrite.Disjoint (f g : FieldWrite) : Prop :=
  f.bits.2 ≤ g.bits.1 ∨ g.bits.2 ≤ f.bits.1

/-- A SETBITS for each field, in order. -/
def packFields : List FieldWrite → State → Result
  | [], s => .next s
  | f :: rest, s =>
    match exec (.setbits f.v f.a f.h f.w) s with
    | .next t => packFields rest t
    | .fault e => .fault e
    | .refused e => .refused e

end Sys2Proof.Machine
end

