-- ==== Sys2Proof/Certificates/Slice0/Obligations.lean ====
section
/-!
DEFINITION. The statements for the provers. Each docstring names the rule of the spec it formalises.
-/

open Sys2Proof Sys2Proof.Machine

/-! ## Encodings -/

/-- R60, R61, R63, R72: the word written for an instruction is read back as that instruction, with
every operand at every value. -/
def Obligations.DecodeEncodeAgree : Prop :=
  ∀ i : Instr, decode (encode i) = .ok i

/-- R60, R61, R72: writing the instruction read from a word gives back exactly the bits that the
operation's format reads, all others 0. -/
def Obligations.EncodeOfDecodeKeepsReadBits : Prop :=
  ∀ (c : Wide) (i : Instr), decode c = .ok i → encode i = c &&& formatMask (opField c)

/-- R67: an illegal `op` ends with `ERR_OP` and changes nothing but the response; a legal `op` never
does; bits that the operation does not read have no effect. -/
def Obligations.IllegalOpsAndIgnoredFields : Prop :=
  (∀ (s : State) (c : Wide) (rest : List HostAction), s.script = .command c :: rest →
    opField c = 0x0 ∨ 0xB ≤ (opField c).toNat →
    step s = .next { s with script := rest, out := .response ⟨.errOp, 0, 0, 0⟩ }) ∧
  (∀ (s : State) (c : Wide) (rest : List HostAction), s.script = .command c :: rest →
    1 ≤ (opField c).toNat → (opField c).toNat ≤ 0xA →
    ∃ t, step s = .next t ∧ t.script = rest ∧ statusOf (.next t) ≠ some .errOp) ∧
  (∀ (s : State) (c c' : Wide), c &&& formatMask (opField c) = c' &&& formatMask (opField c) →
    issue c s = issue c' s)

/-- The words of some vectors of the spec are read as the instructions they stand for (V-C17, V-C18,
V-C20, V-C22, V-B6, V-B21, V-M1, V-M2, V-F3, V-F16). -/
def Obligations.VectorWordsDecode : Prop :=
  decode 0x00000000000000090000000000000001 = .ok (.crc8 0 9) ∧
  decode 0x00000000000000090000000000000002 = .ok (.crc16 0 9) ∧
  decode 0x00000000000000040000001000000003 = .ok (.vcrc8 0x10 4) ∧
  decode 0x00000000000000090000000000000004 = .ok (.vcrc16 0 9) ∧
  decode 0x000000000000000000000000000400C5 = .ok (.getbits 0 4 12) ∧
  decode 0x00000000DEADBEEF0000000000030206 = .ok (.setbits 0xDEADBEEF 0 3 32) ∧
  decode 0x00000002000000040000000000000007 = .ok (.getbytes 0 4 2) ∧
  decode 0x00000000000000040000000200000008 = .ok (.setbytes 2 4 0) ∧
  decode 0x00000040000000030000020012340009 = .ok (.fenc 0x1234 0x200 3 0x40) ∧
  decode 0x000000000000000C000000400000000A = .ok (.fdec 0x40 12)

/-- A step whose host issues a command word that selects an operation runs that operation, on the
state with the command taken off what the host will do. -/
def Obligations.StepRunsTheDecodedInstruction : Prop :=
  ∀ (s : State) (c : Wide) (rest : List HostAction) (i : Instr),
    s.script = .command c :: rest → decode c = .ok i → step s = exec i { s with script := rest }

/-- R64: the layout of the response word, with the codes of R200; every command word gets one response;
which results are 0. -/
def Obligations.ResponseOfEveryCommand : Prop :=
  (statusCode .ok = 0x0 ∧ statusCode .rejSof = 0x1 ∧ statusCode .rejCrc8 = 0x2 ∧
    statusCode .rejCrc16 = 0x3 ∧ statusCode .rejTrunc = 0x4 ∧ statusCode .errOp = 0x8 ∧
    statusCode .errArg = 0x9 ∧ statusCode .errRange = 0xA) ∧
  (∀ r : Response, (responseWord r).extractLsb' 0 4 = statusCode r.status ∧
    (responseWord r).extractLsb' 4 28 = 0 ∧ (responseWord r).extractLsb' 32 32 = r.r0 ∧
    (responseWord r).extractLsb' 64 32 = r.r1 ∧ (responseWord r).extractLsb' 96 32 = r.r2) ∧
  (∀ (s : State) (c : Wide), ∃ t r, issue c s = .next t ∧ t.out = .response r ∧
    (r.status = .errOp ∨ r.status = .errArg ∨ r.status = .errRange ∨ r.status = .rejSof ∨
      r.status = .rejTrunc → r.r0 = 0 ∧ r.r1 = 0 ∧ r.r2 = 0) ∧
    (r.status = .rejCrc8 ∨ r.status = .rejCrc16 → r.r0 = 0 ∧ r.r1 = 0 ∧
      r.r2 = BitVec.ofNat 32 ((s.byteAt ((aField c).toNat + 3)).toNat * 2 ^ 16)) ∧
    (r.status = .ok → (opField c).toNat ≤ 5 → r.r1 = 0 ∧ r.r2 = 0) ∧
    (r.status = .ok → 6 ≤ (opField c).toNat → (opField c).toNat ≤ 8 →
      r.r0 = 0 ∧ r.r1 = 0 ∧ r.r2 = 0))

/-- R66: the layout of the error event word. -/
def Obligations.EventWordLayout : Prop :=
  ∀ e : ErrEvent, (eventWord e).extractLsb' 0 8 = e.seq ∧
    (eventWord e).getLsbD 8 = decide (e.kind = .crc16) ∧ (eventWord e).extractLsb' 9 7 = 0

/-! ## BUF -/

/-- R15: `MemRead` lists the bytes in address order, `MemWrite` sets exactly its range, `bit(P)` is
bit `P mod 8` of byte `P div 8`. -/
def Obligations.BufAccessPrimitives : Prop :=
  (∀ (s : State) (addr n : Nat), s.memRead addr n = (List.range' addr n).map s.byteAt) ∧
  (∀ (s : State) (addr : Nat) (bytes : List Byte) (i : Nat) (b : Byte), bytes[i]? = some b →
    (s.memWrite addr bytes).byteAt (addr + i) = b) ∧
  (∀ (s : State) (addr : Nat) (bytes : List Byte) (x : Nat), x < addr ∨ addr + bytes.length ≤ x →
    (s.memWrite addr bytes).byteAt x = s.byteAt x) ∧
  (∀ (s : State) (P : Nat), (s.bitAt P).toNat = (s.byteAt (P / 8)).toNat >>> (P % 8) &&& 1)

/-- R42: a 16-bit value is stored low byte first, and a wider access is a sequence of byte
accesses. -/
def Obligations.HalfStoredLowByteFirst : Prop :=
  ∀ (s : State) (x : Nat) (v : Half),
    (s.memWrite x [lo8 v, hi8 v]).byteAt x = lo8 v ∧
    (s.memWrite x [lo8 v, hi8 v]).byteAt (x + 1) = hi8 v ∧
    (le16 ((s.memWrite x [lo8 v, hi8 v]).byteAt x)
      ((s.memWrite x [lo8 v, hi8 v]).byteAt (x + 1))).toNat = v.toNat ∧
    (lo8 v).toNat + 256 * (hi8 v).toNat = v.toNat

/-! ## The Checksum Engine -/

/-- R105: CRC8. -/
def Obligations.Crc8Result : Prop :=
  (∀ c : Wide, opField c = 0x1 → decode c = .ok (.crc8 (aField c) (nField c))) ∧
  (∀ (a n : Word) (s : State), s.cfg.bufSize < a.toNat + n.toNat →
    exec (.crc8 a n) s = .next { s with out := .response ⟨.errRange, 0, 0, 0⟩ }) ∧
  (∀ (a n : Word) (s : State), a.toNat + n.toNat ≤ s.cfg.bufSize →
    exec (.crc8 a n) s = .next { s with
      out := .response ⟨.ok, (c8 s.cfg (s.memRead a.toNat n.toNat)).setWidth 32, 0, 0⟩ })

/-- R106: CRC16. -/
def Obligations.Crc16Result : Prop :=
  (∀ c : Wide, opField c = 0x2 → decode c = .ok (.crc16 (aField c) (nField c))) ∧
  (∀ (a n : Word) (s : State), s.cfg.bufSize < a.toNat + n.toNat →
    exec (.crc16 a n) s = .next { s with out := .response ⟨.errRange, 0, 0, 0⟩ }) ∧
  (∀ (a n : Word) (s : State), a.toNat + n.toNat ≤ s.cfg.bufSize →
    exec (.crc16 a n) s = .next { s with
      out := .response ⟨.ok, (c16 s.cfg (s.memRead a.toNat n.toNat)).setWidth 32, 0, 0⟩ })

/-- R107: VCRC8 compares the checksum of the range with the byte after it. -/
def Obligations.Vcrc8Result : Prop :=
  (∀ c : Wide, opField c = 0x3 → decode c = .ok (.vcrc8 (aField c) (nField c))) ∧
  (∀ (a n : Word) (s : State), s.cfg.bufSize < a.toNat + n.toNat + 1 →
    exec (.vcrc8 a n) s = .next { s with out := .response ⟨.errRange, 0, 0, 0⟩ }) ∧
  (∀ (a n : Word) (s : State), a.toNat + n.toNat + 1 ≤ s.cfg.bufSize →
    exec (.vcrc8 a n) s = .next { s with
      out := .response ⟨.ok,
        if c8 s.cfg (s.memRead a.toNat n.toNat) = s.byteAt (a.toNat + n.toNat) then 1 else 0,
        0, 0⟩ })

/-- R108: VCRC16 compares the checksum of the range with the little-endian value after it. -/
def Obligations.Vcrc16Result : Prop :=
  (∀ c : Wide, opField c = 0x4 → decode c = .ok (.vcrc16 (aField c) (nField c))) ∧
  (∀ (a n : Word) (s : State), s.cfg.bufSize < a.toNat + n.toNat + 2 →
    exec (.vcrc16 a n) s = .next { s with out := .response ⟨.errRange, 0, 0, 0⟩ }) ∧
  (∀ (a n : Word) (s : State), a.toNat + n.toNat + 2 ≤ s.cfg.bufSize →
    exec (.vcrc16 a n) s = .next { s with
      out := .response ⟨.ok,
        if (c16 s.cfg (s.memRead a.toNat n.toNat)).toNat =
          (s.byteAt (a.toNat + n.toNat)).toNat + 256 * (s.byteAt (a.toNat + n.toNat + 1)).toNat
        then 1 else 0, 0, 0⟩ })

/-- R100: the four operations of the Checksum Engine write no state, and their result is a function of
the bytes in the range and their order: not of the address, of `SEQ` or of anything earlier. The
stored checksum of a verification is one of the bytes compared. -/
def Obligations.ChecksumsDependOnlyOnTheBytes : Prop :=
  (∀ (i : Instr) (s t : State) (a n : Word),
    i = .crc8 a n ∨ i = .crc16 a n ∨ i = .vcrc8 a n ∨ i = .vcrc16 a n →
    exec i s = .next t → t = { s with out := t.out }) ∧
  (∀ (s s' t t' : State) (a a' n : Word), s.cfg = s'.cfg →
    a.toNat + n.toNat ≤ s.cfg.bufSize → a'.toNat + n.toNat ≤ s.cfg.bufSize →
    (∀ k, k < n.toNat → s.byteAt (a.toNat + k) = s'.byteAt (a'.toNat + k)) →
    (exec (.crc8 a n) s = .next t → exec (.crc8 a' n) s' = .next t' → t.out = t'.out) ∧
    (exec (.crc16 a n) s = .next t → exec (.crc16 a' n) s' = .next t' → t.out = t'.out)) ∧
  (∀ (s s' t t' : State) (a a' n : Word), s.cfg = s'.cfg →
    a.toNat + n.toNat + 1 ≤ s.cfg.bufSize → a'.toNat + n.toNat + 1 ≤ s.cfg.bufSize →
    (∀ k, k < n.toNat + 1 → s.byteAt (a.toNat + k) = s'.byteAt (a'.toNat + k)) →
    exec (.vcrc8 a n) s = .next t → exec (.vcrc8 a' n) s' = .next t' → t.out = t'.out) ∧
  (∀ (s s' t t' : State) (a a' n : Word), s.cfg = s'.cfg →
    a.toNat + n.toNat + 2 ≤ s.cfg.bufSize → a'.toNat + n.toNat + 2 ≤ s.cfg.bufSize →
    (∀ k, k < n.toNat + 2 → s.byteAt (a.toNat + k) = s'.byteAt (a'.toNat + k)) →
    exec (.vcrc16 a n) s = .next t → exec (.vcrc16 a' n) s' = .next t' → t.out = t'.out)

/-- R103, R104: the default functions, from their initial values, computed byte by byte from a 256-entry
table whose entry `b` is eight bit steps from `b`; the bit step; and the entries and the value of
"123456789" that the rules list. That these are the functions of `State.reset` is log entry 4
(PRESUMED). -/
def Obligations.BytewiseTableForm : Prop :=
  (crc8Standard [] = 0xFF ∧ crc16Standard [] = 0xFFFF) ∧
  (∀ c : Byte, crcBits 0x8C 0 c = c ∧ ∀ k, crcBits 0x8C (k + 1) c =
    crcBits 0x8C k (if c.getLsbD 0 then (c >>> 1) ^^^ 0x8C else c >>> 1)) ∧
  (∀ c : Half, crcBits 0x8408 0 c = c ∧ ∀ k, crcBits 0x8408 (k + 1) c =
    crcBits 0x8408 k (if c.getLsbD 0 then (c >>> 1) ^^^ 0x8408 else c >>> 1)) ∧
  ([0, 1, 2, 3, 4, 5, 6, 7].map (crcBits (0x8C : Byte) 8) =
    [0x00, 0x5E, 0xBC, 0xE2, 0x61, 0x3F, 0xDD, 0x83]) ∧
  ([0, 1, 2, 3].map (crcBits (0x8408 : Half) 8) = [0x0000, 0x1189, 0x2312, 0x329B]) ∧
  (crc8Standard [0x31, 0x32, 0x33, 0x34, 0x35, 0x36, 0x37, 0x38, 0x39] = 0x0B ∧
    crc16Standard [0x31, 0x32, 0x33, 0x34, 0x35, 0x36, 0x37, 0x38, 0x39] = 0x6F91) ∧
  (∀ (bytes : List Byte) (b : Byte), crc8Standard (bytes ++ [b]) =
    crcBits 0x8C 8 (crc8Standard bytes ^^^ b)) ∧
  (∀ (bytes : List Byte) (b : Byte), crc16Standard (bytes ++ [b]) =
    (crc16Standard bytes >>> 8) ^^^
      crcBits 0x8408 8 (((crc16Standard bytes).setWidth 8 ^^^ b).setWidth 16))

/-- R109: a stored checksum verifies, and after one bit of the range or of the stored checksum is
inverted it does not. For every configuration that R10 and R101 admit. -/
def Obligations.VerifyRoundTrip : Prop :=
  (∀ (s : State) (a n : Word), ConfigValid s.cfg → a.toNat + n.toNat + 1 ≤ s.cfg.bufSize →
    s.byteAt (a.toNat + n.toNat) = c8 s.cfg (s.memRead a.toNat n.toNat) →
    exec (.vcrc8 a n) s = .next { s with out := .response ⟨.ok, 1, 0, 0⟩ } ∧
    ∀ i j s', i < n.toNat + 1 → j < 8 →
      s' = s.memWrite (a.toNat + i) [s.byteAt (a.toNat + i) ^^^ (1#8 <<< j)] →
      exec (.vcrc8 a n) s' = .next { s' with out := .response ⟨.ok, 0, 0, 0⟩ }) ∧
  (∀ (s : State) (a n : Word), ConfigValid s.cfg → a.toNat + n.toNat + 2 ≤ s.cfg.bufSize →
    s.byteAt (a.toNat + n.toNat) = lo8 (c16 s.cfg (s.memRead a.toNat n.toNat)) →
    s.byteAt (a.toNat + n.toNat + 1) = hi8 (c16 s.cfg (s.memRead a.toNat n.toNat)) →
    exec (.vcrc16 a n) s = .next { s with out := .response ⟨.ok, 1, 0, 0⟩ } ∧
    ∀ i j s', i < n.toNat + 2 → j < 8 →
      s' = s.memWrite (a.toNat + i) [s.byteAt (a.toNat + i) ^^^ (1#8 <<< j)] →
      exec (.vcrc16 a n) s' = .next { s' with out := .response ⟨.ok, 0, 0, 0⟩ })

/-! ## The Bit-Field Codec -/

/-- R122: GETBITS, by bits and by bytes. -/
def Obligations.GetbitsResult : Prop :=
  (∀ c : Wide, opField c = 0x5 → decode c = .ok (.getbits (aField c) (hField c) (wField c))) ∧
  ∀ (a : Word) (h : Half) (w : Width) (s : State),
    let P := 8 * a.toNat + h.toNat
    let B0 := P / 8
    let B1 := (P + w.toNat - 1) / 8
    (w.toNat = 0 ∨ 32 < w.toNat →
      exec (.getbits a h w) s = .next { s with out := .response ⟨.errArg, 0, 0, 0⟩ }) ∧
    (1 ≤ w.toNat → w.toNat ≤ 32 → s.cfg.bufSize ≤ B1 →
      exec (.getbits a h w) s = .next { s with out := .response ⟨.errRange, 0, 0, 0⟩ }) ∧
    (1 ≤ w.toNat → w.toNat ≤ 32 → B1 < s.cfg.bufSize →
      ∃ v : Word, exec (.getbits a h w) s = .next { s with out := .response ⟨.ok, v, 0, 0⟩ } ∧
        v.toNat = ∑ i ∈ Finset.range w.toNat, (s.bitAt (P + i)).toNat * 2 ^ i ∧
        v.toNat = ((∑ j ∈ Finset.range (B1 - B0 + 1), (s.byteAt (B0 + j)).toNat * 256 ^ j)
          >>> (P % 8)) % 2 ^ w.toNat ∧
        v.toNat < 2 ^ w.toNat)

/-- R124, R125, R126: SETBITS, by bits and by bytes; the value is truncated to the width; nothing
outside the field changes. -/
def Obligations.SetbitsResult : Prop :=
  (∀ c : Wide, opField c = 0x6 →
    decode c = .ok (.setbits (nField c) (aField c) (hField c) (wField c))) ∧
  ∀ (v a : Word) (h : Half) (w : Width) (s : State),
    let P := 8 * a.toNat + h.toNat
    let B0 := P / 8
    let B1 := (P + w.toNat - 1) / 8
    let k := B1 - B0 + 1
    let X := ∑ j ∈ Finset.range k, (s.byteAt (B0 + j)).toNat * 256 ^ j
    let M := (2 ^ w.toNat - 1) * 2 ^ (P % 8)
    let X' := (X &&& (2 ^ (8 * k) - 1 - M)) ||| (v.toNat % 2 ^ w.toNat * 2 ^ (P % 8))
    (w.toNat = 0 ∨ 32 < w.toNat →
      exec (.setbits v a h w) s = .next { s with out := .response ⟨.errArg, 0, 0, 0⟩ }) ∧
    (1 ≤ w.toNat → w.toNat ≤ 32 → s.cfg.bufSize ≤ B1 →
      exec (.setbits v a h w) s = .next { s with out := .response ⟨.errRange, 0, 0, 0⟩ }) ∧
    (1 ≤ w.toNat → w.toNat ≤ 32 → B1 < s.cfg.bufSize →
      ∃ t, exec (.setbits v a h w) s = .next t ∧
        t = { s with buf := t.buf, out := .response ⟨.ok, 0, 0, 0⟩ } ∧
        (∀ i, i < w.toNat → t.bitAt (P + i) = (v.toNat % 2 ^ w.toNat).testBit i) ∧
        (∀ Q, Q < P ∨ P + w.toNat ≤ Q → t.bitAt Q = s.bitAt Q) ∧
        (∀ j, j < k → t.byteAt (B0 + j) = BitVec.ofNat 8 (X' >>> (8 * j))) ∧
        (∀ x, x < B0 ∨ B1 < x → t.byteAt x = s.byteAt x))

/-- R127: a field read after it is written holds `v mod 2^w`; disjoint writes commute and do not
disturb disjoint reads; writing twice is writing once. -/
def Obligations.SetThenGetRoundTrip : Prop :=
  (∀ (s : State) (v a : Word) (h : Half) (w : Width), legalWidth w →
    lastByte (bitPos a h) w.toNat < s.cfg.bufSize →
    ∃ t, exec (.setbits v a h w) s = .next t ∧
      exec (.getbits a h w) t = .next { t with
        out := .response ⟨.ok, BitVec.ofNat 32 (v.toNat % 2 ^ w.toNat), 0, 0⟩ } ∧
      (v.toNat < 2 ^ w.toNat → BitVec.ofNat 32 (v.toNat % 2 ^ w.toNat) = v) ∧
      ∃ u, exec (.setbits v a h w) t = .next u ∧ ∀ x, u.byteAt x = t.byteAt x) ∧
  (∀ (s : State) (f g : FieldWrite), legalWidth f.w → legalWidth g.w →
    lastByte (bitPos f.a f.h) f.w.toNat < s.cfg.bufSize →
    lastByte (bitPos g.a g.h) g.w.toNat < s.cfg.bufSize → f.Disjoint g →
    (∃ t u, packFields [f, g] s = .next t ∧ packFields [g, f] s = .next u ∧
      ∀ x, t.byteAt x = u.byteAt x) ∧
    ∃ t u u', exec (.setbits f.v f.a f.h f.w) s = .next t ∧
      exec (.getbits g.a g.h g.w) s = .next u ∧ exec (.getbits g.a g.h g.w) t = .next u' ∧
      u.out = u'.out)

/-- R127 over any number of fields, as R176 packs a descriptor: fields that share no bit, packed one
after the other, all read back truncated to their widths, and every bit outside them is as before. -/
def Obligations.PackedFieldsReadBack : Prop :=
  ∀ (fields : List FieldWrite) (s : State),
    (∀ f ∈ fields, legalWidth f.w ∧ lastByte (bitPos f.a f.h) f.w.toNat < s.cfg.bufSize) →
    fields.Pairwise FieldWrite.Disjoint →
    ∃ t, packFields fields s = .next t ∧
      (∀ f ∈ fields, exec (.getbits f.a f.h f.w) t = .next { t with
        out := .response ⟨.ok, BitVec.ofNat 32 (f.v.toNat % 2 ^ f.w.toNat), 0, 0⟩ }) ∧
      (∀ Q, (∀ f ∈ fields, Q < f.bits.1 ∨ f.bits.2 ≤ Q) → t.bitAt Q = s.bitAt Q)

/-- R123: GETBITS changes no state, its result depends only on the bytes the field touches, and only
on `8*a + h` and `w`. -/
def Obligations.GetbitsIsAPureRead : Prop :=
  (∀ (a : Word) (h : Half) (w : Width) (s t : State), exec (.getbits a h w) s = .next t →
    t = { s with out := t.out }) ∧
  (∀ (a a' : Word) (h h' : Half) (w : Width) (s : State),
    8 * a.toNat + h.toNat = 8 * a'.toNat + h'.toNat →
    exec (.getbits a h w) s = exec (.getbits a' h' w) s) ∧
  (∀ (a : Word) (h : Half) (w : Width) (s s' t t' : State), s.cfg = s'.cfg →
    (∀ x, firstByte (bitPos a h) ≤ x → x ≤ lastByte (bitPos a h) w.toNat →
      s.byteAt x = s'.byteAt x) →
    exec (.getbits a h w) s = .next t → exec (.getbits a h w) s' = .next t' → t.out = t'.out)

/-- R128, R129: GETBYTES and SETBYTES copy the source range as it was before the command, whatever
the overlap, and change nothing else. -/
def Obligations.CopiesAreSnapshots : Prop :=
  (∀ c : Wide, opField c = 0x7 → decode c = .ok (.getbytes (aField c) (nField c) (dField c))) ∧
  (∀ c : Wide, opField c = 0x8 → decode c = .ok (.setbytes (aField c) (nField c) (dField c))) ∧
  ∀ (i : Instr) (a n d : Word) (s : State), i = .getbytes a n d ∨ i = .setbytes a n d →
    (s.cfg.bufSize < a.toNat + n.toNat ∨ s.cfg.bufSize < d.toNat + n.toNat →
      exec i s = .next { s with out := .response ⟨.errRange, 0, 0, 0⟩ }) ∧
    (a.toNat + n.toNat ≤ s.cfg.bufSize → d.toNat + n.toNat ≤ s.cfg.bufSize →
      ∃ t, exec i s = .next t ∧ t = { s with buf := t.buf, out := .response ⟨.ok, 0, 0, 0⟩ } ∧
        (∀ k, k < n.toNat → t.byteAt (d.toNat + k) = s.byteAt (a.toNat + k)) ∧
        (∀ x, x < d.toNat ∨ d.toNat + n.toNat ≤ x → t.byteAt x = s.byteAt x))

/-- R130: the byte at `x` is the 8-bit field there, and a copy of up to 4 bytes leaves the bytes that a
read of the field of that many bytes and a write of its result leave. (Of 0 bytes: both bit
operations end with `ERR_ARG` and, like the copy, change no byte.) -/
def Obligations.ByteAndBitFormsAgree : Prop :=
  (∀ (x : Word) (s : State), x.toNat < s.cfg.bufSize →
    exec (.getbits x 0 8) s =
      .next { s with out := .response ⟨.ok, (s.byteAt x.toNat).setWidth 32, 0, 0⟩ }) ∧
  (∀ (a n d : Word) (s : State), n.toNat ≤ 4 →
    a.toNat + n.toNat ≤ s.cfg.bufSize → d.toNat + n.toNat ≤ s.cfg.bufSize →
    ∃ t x r u, exec (.getbytes a n d) s = .next t ∧
      exec (.getbits a 0 (BitVec.ofNat 6 (8 * n.toNat))) s = .next x ∧ x.out = .response r ∧
      (1 ≤ n.toNat → r.status = .ok) ∧
      exec (.setbits r.r0 d 0 (BitVec.ofNat 6 (8 * n.toNat))) x = .next u ∧
      ∀ y, t.byteAt y = u.byteAt y)

/-! ## The Inner Frame Codec -/

/-- R142, R143: FENC builds the frame from the data as it was before, advances `SEQ` by one modulo 256,
and changes nothing else; a failed FENC changes nothing. -/
def Obligations.FencResult : Prop :=
  (∀ c : Wide, opField c = 0x9 →
    decode c = .ok (.fenc (hField c) (aField c) (nField c) (dField c))) ∧
  ∀ (h : Half) (a n d : Word) (s : State),
    let data := s.memRead a.toNat n.toNat
    let len := BitVec.ofNat 16 n.toNat
    let q := if s.cfg.seqPreinc then s.seq + 1 else s.seq
    let hdr : List Byte := [0xA5, lo8 len, hi8 len, q]
    let body := hdr ++ [c8 s.cfg hdr] ++ [lo8 h, hi8 h] ++ data
    let frame := body ++ [lo8 (c16 s.cfg body), hi8 (c16 s.cfg body)]
    (65535 < n.toNat →
      exec (.fenc h a n d) s = .next { s with out := .response ⟨.errArg, 0, 0, 0⟩ }) ∧
    (n.toNat ≤ 65535 →
      s.cfg.bufSize < a.toNat + n.toNat ∨ s.cfg.bufSize < d.toNat + 9 + n.toNat →
      exec (.fenc h a n d) s = .next { s with out := .response ⟨.errRange, 0, 0, 0⟩ }) ∧
    (n.toNat ≤ 65535 → a.toNat + n.toNat ≤ s.cfg.bufSize → d.toNat + 9 + n.toNat ≤ s.cfg.bufSize →
      ∃ t, exec (.fenc h a n d) s = .next t ∧
        t = { s with
          buf := t.buf
          seq := BitVec.ofNat 8 ((s.seq.toNat + 1) % 256)
          out := .response ⟨.ok, BitVec.ofNat 32 (9 + n.toNat), d,
            BitVec.ofNat 32 (q.toNat * 2 ^ 16)⟩ } ∧
        frame.length = 9 + n.toNat ∧
        (∀ k, k < 9 + n.toNat → some (t.byteAt (d.toNat + k)) = frame[k]?) ∧
        (∀ x, x < d.toNat ∨ d.toNat + 9 + n.toNat ≤ x → t.byteAt x = s.byteAt x))

/-- R69: the layout of the frame that FENC leaves in `BUF`, field by field at its offset, each checksum
taken over the bytes that stand before it. -/
def Obligations.FrameLayout : Prop :=
  ∀ (h : Half) (a n d : Word) (s : State), n.toNat ≤ 65535 →
    a.toNat + n.toNat ≤ s.cfg.bufSize → d.toNat + 9 + n.toNat ≤ s.cfg.bufSize →
    ∃ t, exec (.fenc h a n d) s = .next t ∧
      t.byteAt d.toNat = 0xA5 ∧
      (t.byteAt (d.toNat + 1)).toNat = n.toNat % 256 ∧
      (t.byteAt (d.toNat + 2)).toNat = n.toNat / 256 ∧
      t.byteAt (d.toNat + 3) = (if s.cfg.seqPreinc then s.seq + 1 else s.seq) ∧
      t.byteAt (d.toNat + 4) = c8 s.cfg (t.memRead d.toNat 4) ∧
      (t.byteAt (d.toNat + 5)).toNat = h.toNat % 256 ∧
      (t.byteAt (d.toNat + 6)).toNat = h.toNat / 256 ∧
      (∀ k, k < n.toNat → t.byteAt (d.toNat + 7 + k) = s.byteAt (a.toNat + k)) ∧
      (t.byteAt (d.toNat + 7 + n.toNat)).toNat =
        (c16 s.cfg (t.memRead d.toNat (7 + n.toNat))).toNat % 256 ∧
      (t.byteAt (d.toNat + 8 + n.toNat)).toNat =
        (c16 s.cfg (t.memRead d.toNat (7 + n.toNat))).toNat / 256

/-- R147: FDEC, test by test in the order of the rule, with what each outcome reports and emits. -/
def Obligations.FdecResult : Prop :=
  (∀ c : Wide, opField c = 0xA → decode c = .ok (.fdec (aField c) (nField c))) ∧
  ∀ (a n : Word) (s : State),
    let A := a.toNat
    let N := n.toNat
    let q := s.byteAt (A + 3)
    let L := (s.byteAt (A + 1)).toNat + 256 * (s.byteAt (A + 2)).toNat
    let header := c8 s.cfg (s.memRead A 4) = s.byteAt (A + 4)
    let trailer := (c16 s.cfg (s.memRead A (7 + L))).toNat =
      (s.byteAt (A + 7 + L)).toNat + 256 * (s.byteAt (A + 8 + L)).toNat
    (s.cfg.bufSize < A + N →
      exec (.fdec a n) s = .next { s with out := .response ⟨.errRange, 0, 0, 0⟩ }) ∧
    (A + N ≤ s.cfg.bufSize → N < 1 ∨ s.byteAt A ≠ 0xA5 →
      exec (.fdec a n) s = .next { s with out := .response ⟨.rejSof, 0, 0, 0⟩ }) ∧
    (A + N ≤ s.cfg.bufSize → 1 ≤ N → s.byteAt A = 0xA5 → N < 5 →
      exec (.fdec a n) s = .next { s with out := .response ⟨.rejTrunc, 0, 0, 0⟩ }) ∧
    (A + N ≤ s.cfg.bufSize → s.byteAt A = 0xA5 → 5 ≤ N → ¬ header →
      exec (.fdec a n) s = .next { s with
        errlog := s.errlog ++ [⟨.crc8, q⟩]
        out := .response ⟨.rejCrc8, 0, 0, BitVec.ofNat 32 (q.toNat * 2 ^ 16)⟩ }) ∧
    (A + N ≤ s.cfg.bufSize → s.byteAt A = 0xA5 → 5 ≤ N → header → N < 9 + L →
      exec (.fdec a n) s = .next { s with out := .response ⟨.rejTrunc, 0, 0, 0⟩ }) ∧
    (A + N ≤ s.cfg.bufSize → s.byteAt A = 0xA5 → header → 9 + L ≤ N → ¬ trailer →
      exec (.fdec a n) s = .next { s with
        errlog := s.errlog ++ [⟨.crc16, q⟩]
        out := .response ⟨.rejCrc16, 0, 0, BitVec.ofNat 32 (q.toNat * 2 ^ 16)⟩ }) ∧
    (A + N ≤ s.cfg.bufSize → s.byteAt A = 0xA5 → header → 9 + L ≤ N → trailer →
      exec (.fdec a n) s = .next { s with
        out := .response ⟨.ok,
          BitVec.ofNat 32 ((s.byteAt (A + 5)).toNat + 256 * (s.byteAt (A + 6)).toNat),
          BitVec.ofNat 32 (A + 7), BitVec.ofNat 32 (L + q.toNat * 2 ^ 16)⟩ })

/-- R155: what FDEC accepts, exactly, and the same said with the two verify operations. -/
def Obligations.FdecAcceptsExactly : Prop :=
  ∀ (a n : Word) (s : State), a.toNat + n.toNat ≤ s.cfg.bufSize →
    let A := a.toNat
    let L := (s.byteAt (A + 1)).toNat + 256 * (s.byteAt (A + 2)).toNat
    (statusOf (exec (.fdec a n) s) = some .ok ↔
      5 ≤ n.toNat ∧ s.byteAt A = 0xA5 ∧ s.byteAt (A + 4) = c8 s.cfg (s.memRead A 4) ∧
        9 + L ≤ n.toNat ∧ le16 (s.byteAt (A + 7 + L)) (s.byteAt (A + 8 + L)) =
          c16 s.cfg (s.memRead A (7 + L))) ∧
    (statusOf (exec (.fdec a n) s) = some .ok ↔
      s.byteAt A = 0xA5 ∧
        exec (.vcrc8 a 4) s = .next { s with out := .response ⟨.ok, 1, 0, 0⟩ } ∧
        9 + L ≤ n.toNat ∧
        exec (.vcrc16 a (BitVec.ofNat 32 (7 + L))) s =
          .next { s with out := .response ⟨.ok, 1, 0, 0⟩ })

/-- R148 to R151: how far FDEC reads. With fewer than 5 bytes available, or without the start marker,
only the first byte matters (none when no byte is available); with a header checksum that fails, or
one that holds but fewer bytes than the declared frame, only the first five; with the whole declared
frame available only that frame, and a longer range gives the same answer. In every case the same
events are emitted. -/
def Obligations.FdecReadsNoFurtherThanItTrusts : Prop :=
  ∀ (a n : Word) (s s' t t' : State), s.cfg = s'.cfg → a.toNat + n.toNat ≤ s.cfg.bufSize →
    exec (.fdec a n) s = .next t →
    let A := a.toNat
    let L := (s.byteAt (A + 1)).toNat + 256 * (s.byteAt (A + 2)).toNat
    (n.toNat < 5 → (1 ≤ n.toNat → s'.byteAt A = s.byteAt A) → exec (.fdec a n) s' = .next t' →
      t'.out = t.out ∧ t.errlog = s.errlog ∧ t'.errlog = s'.errlog) ∧
    (s.byteAt A ≠ 0xA5 → s'.byteAt A = s.byteAt A → exec (.fdec a n) s' = .next t' →
      t'.out = t.out ∧ t.errlog = s.errlog ∧ t'.errlog = s'.errlog) ∧
    (5 ≤ n.toNat → c8 s.cfg (s.memRead A 4) ≠ s.byteAt (A + 4) → AgreeOn s s' A 5 →
      exec (.fdec a n) s' = .next t' → t'.out = t.out ∧
        ∃ events, t.errlog = s.errlog ++ events ∧ t'.errlog = s'.errlog ++ events) ∧
    (5 ≤ n.toNat → c8 s.cfg (s.memRead A 4) = s.byteAt (A + 4) → n.toNat < 9 + L →
      AgreeOn s s' A 5 → exec (.fdec a n) s' = .next t' →
      t'.out = t.out ∧ t.errlog = s.errlog ∧ t'.errlog = s'.errlog) ∧
    (∀ m : Word, c8 s.cfg (s.memRead A 4) = s.byteAt (A + 4) → 9 + L ≤ n.toNat → 9 + L ≤ m.toNat →
      A + m.toNat ≤ s.cfg.bufSize → AgreeOn s s' A (9 + L) →
      exec (.fdec a m) s' = .next t' → t'.out = t.out ∧
        ∃ events, t.errlog = s.errlog ++ events ∧ t'.errlog = s'.errlog ++ events)

/-- R156: what FENC builds FDEC accepts, with the same command id, length, sequence number and data,
however many more bytes are available; and the next FENC carries the next sequence number. -/
def Obligations.FrameRoundTrip : Prop :=
  ∀ (h : Half) (a n d m : Word) (s : State), n.toNat ≤ 65535 →
    a.toNat + n.toNat ≤ s.cfg.bufSize → 9 + n.toNat ≤ m.toNat → d.toNat + m.toNat ≤ s.cfg.bufSize →
    ∃ (t : State) (q : Byte), exec (.fenc h a n d) s = .next t ∧
      t.out = .response ⟨.ok, 9 + n, d, BitVec.ofNat 32 (q.toNat * 2 ^ 16)⟩ ∧
      exec (.fdec d m) t = .next { t with
        out := .response ⟨.ok, h.setWidth 32, d + 7,
          BitVec.ofNat 32 (n.toNat + q.toNat * 2 ^ 16)⟩ } ∧
      (∀ k, k < n.toNat → t.byteAt (d.toNat + 7 + k) = s.byteAt (a.toNat + k)) ∧
      (∀ (h' : Half) (a' n' d' : Word) (u : State), exec (.fenc h' a' n' d') t = .next u →
        statusOf (.next u) = some .ok →
        u.out = .response ⟨.ok, 9 + n', d',
          BitVec.ofNat 32 ((q.toNat + 1) % 256 * 2 ^ 16)⟩)

/-- R157: one changed byte in an accepted frame is rejected, with the outcome and the event that its
offset gives. For every configuration that R10 and R101 admit. -/
def Obligations.OneChangedByteIsRejected : Prop :=
  ∀ (s : State) (x n : Word) (i : Nat) (b : Byte), ConfigValid s.cfg →
    statusOf (exec (.fdec x n) s) = some .ok →
    n.toNat = 9 + ((s.byteAt (x.toNat + 1)).toNat + 256 * (s.byteAt (x.toNat + 2)).toNat) →
    i < n.toNat → b ≠ s.byteAt (x.toNat + i) →
    let s' := s.memWrite (x.toNat + i) [b]
    let q' := s'.byteAt (x.toNat + 3)
    exec (.fdec x n) s' = .next
      (if i = 0 then { s' with out := .response ⟨.rejSof, 0, 0, 0⟩ }
       else if i ≤ 4 then { s' with
         errlog := s.errlog ++ [⟨.crc8, q'⟩]
         out := .response ⟨.rejCrc8, 0, 0, BitVec.ofNat 32 (q'.toNat * 2 ^ 16)⟩ }
       else { s' with
         errlog := s.errlog ++ [⟨.crc16, q'⟩]
         out := .response ⟨.rejCrc16, 0, 0, BitVec.ofNat 32 (q'.toNat * 2 ^ 16)⟩ })

/-- R20: `SEQ` is written by a successful FENC and by RESET alone, and read by FENC alone. -/
def Obligations.OnlyFencTouchesSeq : Prop :=
  (∀ (i : Instr) (s t : State), exec i s = .next t →
    t.seq = (if (∃ h a n d, i = .fenc h a n d) ∧ statusOf (.next t) = some .ok
      then s.seq + 1 else s.seq)) ∧
  (∀ (s t : State) (action : HostAction) (rest : List HostAction), s.script = action :: rest →
    (∀ c, action ≠ .command c) → step s = .next t →
    t.seq = if action = .reset then 0 else s.seq) ∧
  (∀ (i : Instr) (s t : State) (q : Byte), (∀ h a n d, i ≠ .fenc h a n d) →
    exec i s = .next t → exec i { s with seq := q } = .next { t with seq := q })

/-- R21, R145: over any run without a RESET, from any state, `SEQ` advances by the number of frames
built, modulo 256. -/
def Obligations.SeqCountsBuiltFrames : Prop :=
  ∀ (k : Nat) (s t : State), Host.Core.run core k s = .next t → .reset ∉ s.script.take k →
    t.seq.toNat = (s.seq.toNat + framesBuilt k s) % 256

/-! ## Statuses and events -/

/-- R68: exactly the listed field values of a legal `op` are illegal, and each ends with `ERR_ARG` and
no state change. -/
def Obligations.IllegalFieldValues : Prop :=
  (∀ (a : Word) (h : Half) (w : Width) (s : State), w.toNat = 0 ∨ 32 < w.toNat →
    exec (.getbits a h w) s = .next { s with out := .response ⟨.errArg, 0, 0, 0⟩ }) ∧
  (∀ (v a : Word) (h : Half) (w : Width) (s : State), w.toNat = 0 ∨ 32 < w.toNat →
    exec (.setbits v a h w) s = .next { s with out := .response ⟨.errArg, 0, 0, 0⟩ }) ∧
  (∀ (h : Half) (a n d : Word) (s : State), 65535 < n.toNat →
    exec (.fenc h a n d) s = .next { s with out := .response ⟨.errArg, 0, 0, 0⟩ }) ∧
  (∀ (i : Instr) (s : State), i.WellFormed → statusOf (exec i s) ≠ some .errArg)

/-- R46: a command whose every byte could not lie in `BUF` ends with `ERR_RANGE` and changes nothing;
one whose bytes all do never ends so. The check is in the naturals. -/
def Obligations.RangeCheckFirst : Prop :=
  (∀ (i : Instr) (s : State), i.WellFormed → ¬ FitsBuf i s →
    exec i s = .next { s with out := .response ⟨.errRange, 0, 0, 0⟩ }) ∧
  (∀ (i : Instr) (s : State), FitsBuf i s → statusOf (exec i s) ≠ some .errRange)

/-- R205: the first condition in the order of the rule decides the status, from the command word on. -/
def Obligations.PriorityOfChecks : Prop :=
  ∀ (s : State) (c : Wide),
    ((∀ i, decode c ≠ .ok i) → statusOf (issue c s) = some .errOp) ∧
    (∀ i, decode c = .ok i → ¬ i.WellFormed → statusOf (issue c s) = some .errArg) ∧
    (∀ i, decode c = .ok i → i.WellFormed → ¬ FitsBuf i s →
      statusOf (issue c s) = some .errRange) ∧
    (∀ i, decode c = .ok i → i.WellFormed → FitsBuf i s → (∀ a n, i ≠ .fdec a n) →
      statusOf (issue c s) = some .ok) ∧
    (∀ a n, decode c = .ok (.fdec a n) → FitsBuf (.fdec a n) s →
      let L := (s.byteAt (a.toNat + 1)).toNat + 256 * (s.byteAt (a.toNat + 2)).toNat
      statusOf (issue c s) = some (
        if n.toNat = 0 ∨ s.byteAt a.toNat ≠ 0xA5 then .rejSof
        else if n.toNat < 5 then .rejTrunc
        else if c8 s.cfg (s.memRead a.toNat 4) ≠ s.byteAt (a.toNat + 4) then .rejCrc8
        else if n.toNat < 9 + L then .rejTrunc
        else if c16 s.cfg (s.memRead a.toNat (7 + L)) ≠
          le16 (s.byteAt (a.toNat + 7 + L)) (s.byteAt (a.toNat + 8 + L)) then .rejCrc16
        else .ok))

/-- R206, the statuses not marked: no operation ends with a status its row does not mark. -/
def Obligations.NoOtherStatuses : Prop :=
  ∀ (i : Instr) (s : State), ∃ status, statusOf (exec i s) = some status ∧
    status ∈ possibleStatuses i

/-- R210: a command that does not end `OK` changes nothing but the response, except that a checksum
rejection appends one event; the next command starts from there. -/
def Obligations.NonOkChangesNothing : Prop :=
  ∀ (s t : State) (c : Wide) (r : Response), issue c s = .next t → t.out = .response r →
    r.status ≠ .ok →
    t = { s with
      out := .response r
      errlog := if r.status = .rejCrc8 ∨ r.status = .rejCrc16 then t.errlog else s.errlog } ∧
    (r.status = .rejCrc8 → t.errlog = s.errlog ++ [⟨.crc8, s.byteAt ((aField c).toNat + 3)⟩]) ∧
    (r.status = .rejCrc16 → t.errlog = s.errlog ++ [⟨.crc16, s.byteAt ((aField c).toNat + 3)⟩])

/-- R24, R204: over any step but a RESET, `ERRLOG` only grows at its end, by one event exactly when the
step is a command that ends with a checksum rejection, and only FDEC emits. -/
def Obligations.ErrlogIsAppendOnly : Prop :=
  ∀ (s t : State), step s = .next t → s.script.head? ≠ some .reset →
    t.errlog = s.errlog ∨
    ∃ (a n : Word) (c : Wide) (e : ErrEvent), s.script.head? = some (.command c) ∧
      decode c = .ok (.fdec a n) ∧ t.errlog = s.errlog ++ [e] ∧
      e.seq = s.byteAt (a.toNat + 3) ∧
      (e.kind = .crc8 ∧ statusOf (.next t) = some .rejCrc8 ∨
        e.kind = .crc16 ∧ statusOf (.next t) = some .rejCrc16)

/-- R247: every one of the command words, in every state, is one step with exactly one response. -/
def Obligations.EveryCommandCompletes : Prop :=
  ∀ (s : State) (c : Wide) (rest : List HostAction), s.script = .command c :: rest →
    ∃ (t : State) (r : Response), step s = .next t ∧ t.out = .response r ∧ t.script = rest

/-! ## Frames and noninterference -/

/-- R47: reads have no side effects: the host's reads and the read-only operations change no state, and
FDEC changes nothing but `ERRLOG`, on a checksum rejection. -/
def Obligations.ReadOnlyOperations : Prop :=
  (∀ (s t : State) (addr n : Nat) (rest : List HostAction), s.script = .hread addr n :: rest →
    step s = .next t → t = { s with script := rest, out := t.out }) ∧
  (∀ (i : Instr) (s t : State), writeRange i = none → (∀ a n, i ≠ .fdec a n) →
    exec i s = .next t → t = { s with out := t.out }) ∧
  (∀ (a n : Word) (s t : State), exec (.fdec a n) s = .next t →
    t = { s with out := t.out, errlog := t.errlog } ∧
    (statusOf (.next t) = some .rejCrc8 →
      t.errlog = s.errlog ++ [⟨.crc8, s.byteAt (a.toNat + 3)⟩]) ∧
    (statusOf (.next t) = some .rejCrc16 →
      t.errlog = s.errlog ++ [⟨.crc16, s.byteAt (a.toNat + 3)⟩]) ∧
    (statusOf (.next t) ≠ some .rejCrc8 → statusOf (.next t) ≠ some .rejCrc16 →
      t.errlog = s.errlog))

/-- The write columns of R35, for every instruction: bytes of `BUF` outside the written range, `SEQ`,
`ERRLOG`, the configuration and the host's side are as before, except where the table marks them; an
interface error touches nothing. -/
def Obligations.FrameOfEveryInstruction : Prop :=
  ∀ (i : Instr) (s t : State), exec i s = .next t →
    (∀ x, (∀ r, writeRange i = some r → x < r.1 ∨ r.1 + r.2 ≤ x) → t.byteAt x = s.byteAt x) ∧
    ((∀ h a n d, i ≠ .fenc h a n d) → t.seq = s.seq) ∧
    ((∀ a n, i ≠ .fdec a n) → t.errlog = s.errlog) ∧
    t.errRead = s.errRead ∧ t.script = s.script ∧ t.epoch = s.epoch ∧ t.cfg = s.cfg ∧
    (∀ status, statusOf (.next t) = some status → isInterfaceError status = true →
      t = { s with out := t.out })

/-- The read columns of R35, for every instruction: in two states that agree on the configuration, on
the bytes in the read range and, for FENC, on `SEQ`, an instruction gives the same response, emits the
same events and writes the same bytes. -/
def Obligations.InstructionsReadOnlyTheirRange : Prop :=
  ∀ (i : Instr) (s s' : State), s.cfg = s'.cfg →
    AgreeOn s s' (readRange i).1 (readRange i).2 →
    ((∃ h a n d, i = .fenc h a n d) → s.seq = s'.seq) →
    ∃ (t t' : State) (events : List ErrEvent), exec i s = .next t ∧ exec i s' = .next t' ∧
      t.out = t'.out ∧ t.errlog = s.errlog ++ events ∧ t'.errlog = s'.errlog ++ events ∧
      ∀ r, writeRange i = some r → statusOf (.next t) = some .ok → AgreeOn t t' r.1 r.2

/-! ## The host and the whole machine -/

/-- R222: the host actions. HWRITE and HREAD act on `BUF` and are refused outside it; HERR reads the
oldest unread event and keeps it; a command gets its response; none but RESET and a command touches
`SEQ`. -/
def Obligations.HostActionsDoWhatTheySay : Prop :=
  (∀ (s : State) (addr : Nat) (bytes : List Byte) (rest : List HostAction),
    s.script = .hwrite addr bytes :: rest →
    (addr + bytes.length ≤ s.cfg.bufSize → ∃ t, step s = .next t ∧
      t = { s with buf := t.buf, script := rest, out := .nothing } ∧
      (∀ k, k < bytes.length → some (t.byteAt (addr + k)) = bytes[k]?) ∧
      (∀ x, x < addr ∨ addr + bytes.length ≤ x → t.byteAt x = s.byteAt x)) ∧
    (s.cfg.bufSize < addr + bytes.length → step s = .refused .hostAccessOutsideBuf)) ∧
  (∀ (s : State) (addr n : Nat) (rest : List HostAction), s.script = .hread addr n :: rest →
    (addr + n ≤ s.cfg.bufSize → step s = .next { s with
      script := rest, out := .bytes ((List.range' addr n).map s.byteAt) }) ∧
    (s.cfg.bufSize < addr + n → step s = .refused .hostAccessOutsideBuf)) ∧
  (∀ (s : State) (e : ErrEvent) (rest : List HostAction), s.script = .herr :: rest →
    (s.errlog.drop s.errRead).head? = some e → step s = .next { s with
      script := rest, out := .event (some e), errRead := s.errRead + 1 }) ∧
  (∀ (s : State) (c : Wide) (rest : List HostAction), s.script = .command c :: rest →
    ∃ t r, step s = issue c { s with script := rest } ∧ step s = .next t ∧ t.out = .response r) ∧
  (∀ (s : State) (rest : List HostAction), s.script = .reset :: rest →
    step s = .next (State.resetAction { s with script := rest }))

/-- R240, R241: RESET sets `SEQ` to 0 and empties `ERRLOG`; no response is pending; the configuration
stays. The bytes of `BUF` after it are free values of a new epoch, the model's form of `any value`
(log entry 1); they are the same whatever `BUF` held. -/
def Obligations.ResetAction : Prop :=
  ∀ (s : State) (rest : List HostAction), s.script = .reset :: rest →
    ∃ t, step s = .next t ∧ t.seq = 0 ∧ t.errlog = [] ∧ t.out = .nothing ∧ t.cfg = s.cfg ∧
      t.script = rest ∧ (∀ x, t.byteAt x = Config.initByte (s.epoch + 1) x) ∧
      ∀ s' t', s'.script = .reset :: rest → s'.epoch = s.epoch → step s' = .next t' →
        ∀ x, t'.byteAt x = t.byteAt x

/-- R33, R241: no step, RESET among them, changes the configuration. That the configuration stands in
the state is the model's choice (log entry 2). -/
def Obligations.ConfigurationIsFixed : Prop :=
  ∀ (s t : State), step s = .next t → t.cfg = s.cfg

/-- The state after reset meets the invariant (R34, R240). The fields `errRead` and `out` are the model's
(log entries 9 and 6). -/
def Obligations.ResetMeetsInvariant : Prop :=
  State.reset.Inv

/-- Every step keeps the invariant: the memory is canonical and lies below `BUF_SIZE`, the host has
read no more events than there are, and the response is lawful (R22, R50, R64, R222). The form of
the memory and the event pointer are the model's (log entries 1 and 9). -/
def Obligations.EveryStepKeepsInvariant : Prop :=
  ∀ (s t : State), s.Inv → step s = .next t → t.Inv

/-- R34, R240: the power-on state. `SEQ` is 0, `ERRLOG` is empty, no response is pending, and every byte
of `BUF` is a free value, the model's form of `any value` (log entry 1); the host's side stands at its
start and the configuration is the default of R10 (log entries 4, 5, 6 and 9, the model's choices). -/
def Obligations.PowerOnState : Prop :=
  State.reset.seq = 0 ∧ State.reset.errlog = [] ∧ State.reset.out = .nothing ∧
  (∀ x, State.reset.byteAt x = Config.initByte State.reset.epoch x) ∧
  State.reset.errRead = 0 ∧ State.reset.script = [] ∧
  State.reset.cfg = { bufSize := 262144, crc8 := .standard, crc16 := .standard, seqPreinc := false }
end

