-- ==== Sys2Proof/Laws/Crc.lean ====
section
/-!
SUPPORT. The default checksum functions (R103, R104): a change of one byte always changes the
checksum, so the default configuration meets R10 and R101.
-/

namespace Sys2Proof.Machine

/-- A bit step loses nothing when the polynomial has its top bit set: the top bit of the result is
the bit shifted out. -/
theorem crcBit_injective {k : Nat} {poly : BitVec k} (hk : 1 ≤ k) (hp : poly.getLsbD (k - 1) = true) :
    Function.Injective (crcBit poly) := by
  intro c d h
  have top : ∀ e : BitVec k, (crcBit poly e).getLsbD (k - 1) = e.getLsbD 0 := by
    intro e
    have hs : (e >>> 1).getLsbD (k - 1) = false := by
      rw [BitVec.getLsbD_ushiftRight]
      exact BitVec.getLsbD_of_ge _ _ (by omega)
    unfold crcBit
    split
    · rw [BitVec.getLsbD_xor, hs, hp]
      simp [*]
    · rw [hs]
      simp [*]
  have h0 : c.getLsbD 0 = d.getLsbD 0 := by rw [← top c, ← top d, h]
  have hshift : c >>> 1 = d >>> 1 := by
    unfold crcBit at h
    rw [h0] at h
    split at h
    · simpa using h
    · exact h
  apply BitVec.eq_of_getLsbD_eq fun i _ => ?_
  cases i with
  | zero => exact h0
  | succ i =>
    have := congrArg (fun e => e.getLsbD i) hshift
    simpa [BitVec.getLsbD_ushiftRight, Nat.add_comm] using this

theorem crcBits_injective {k : Nat} {poly : BitVec k} (hk : 1 ≤ k)
    (hp : poly.getLsbD (k - 1) = true) (times : Nat) : Function.Injective (crcBits poly times) := by
  induction times with
  | zero => exact fun c d h => h
  | succ times ih => exact fun c d h => crcBit_injective hk hp (ih h)

/-- Different running values stay different under the same byte. -/
theorem crcByte_injective {k : Nat} {poly : BitVec k} (hk : 1 ≤ k)
    (hp : poly.getLsbD (k - 1) = true) (b : Byte) : Function.Injective (fun c => crcByte poly c b) :=
  fun _ _ h => BitVec.xor_left_inj _ |>.1 (crcBits_injective hk hp 8 h)

/-- Different bytes make different running values. -/
theorem crcByte_byte_injective {k : Nat} {poly : BitVec k} (hk : 8 ≤ k)
    (hp : poly.getLsbD (k - 1) = true) (c : BitVec k) : Function.Injective (crcByte poly c) := by
  intro b b' h
  have h1 : b.setWidth k = b'.setWidth k :=
    (BitVec.xor_right_inj _).1 (crcBits_injective (by omega) hp 8 h)
  apply BitVec.eq_of_getLsbD_eq fun i hi => ?_
  have h2 := congrArg (fun e => e.getLsbD i) h1
  have h3 : i < k := by omega
  simpa [BitVec.getLsbD_setWidth, h3] using h2

theorem crcFrom_injective {k : Nat} {poly : BitVec k} (hk : 1 ≤ k)
    (hp : poly.getLsbD (k - 1) = true) (bytes : List Byte) :
    Function.Injective (fun init => crcFrom poly init bytes) := by
  induction bytes with
  | nil => exact fun _ _ h => h
  | cons b rest ih => exact fun c d h => crcByte_injective hk hp b (ih h)

/-- A change of one byte, at any place of a sequence of any length, changes the checksum. -/
theorem crcFrom_detects {k : Nat} {poly : BitVec k} (hk : 8 ≤ k)
    (hp : poly.getLsbD (k - 1) = true) (init : BitVec k) {s s' : List Byte}
    (h : OneByteChanged s s') : crcFrom poly init s' ≠ crcFrom poly init s := by
  obtain ⟨i, b, hi, hb, rfl⟩ := h
  intro he
  have hs : s = s.take i ++ s[i] :: s.drop (i + 1) := by simp
  have hset : s.set i b = s.take i ++ b :: s.drop (i + 1) := by
    rw [List.set_eq_take_append_cons_drop, if_pos hi]
  rw [hset, congrArg (crcFrom poly init) hs] at he
  simp only [crcFrom, List.foldl_append, List.foldl_cons] at he
  have h1 := crcFrom_injective (k := k) (by omega) hp _ he
  have h2 := crcByte_byte_injective hk hp _ h1
  apply hb
  rw [List.getElem?_eq_getElem hi, ← h2]

/-- A change of one bit is a change of one byte. -/
theorem OneBitChanged.oneByte {s s' : List Byte} (h : OneBitChanged s s') : OneByteChanged s s' := by
  obtain ⟨i, j, hi, hj, rfl⟩ := h
  refine ⟨i, s[i] ^^^ (1#8 <<< j), hi, ?_, ?_⟩
  · rw [List.getElem?_eq_getElem hi]
    intro he
    have h1 := congrArg (fun e => BitVec.getLsbD e j) (Option.some.inj he)
    simp [hj] at h1
  · rw [List.modify_eq_set]
    simp [List.getElem?_eq_getElem hi]

/-- The default functions meet R101, at every length. -/
theorem standard_detects {cfg : Config} (h8 : cfg.crc8 = .standard) (h16 : cfg.crc16 = .standard) :
    ChecksumsDetect cfg := by
  have d8 : ∀ s s', OneByteChanged s s' → c8 cfg s' ≠ c8 cfg s := fun s s' h => by
    simp only [c8, h8, crc8Standard]
    exact crcFrom_detects (by omega) (by decide) _ h
  have d16 : ∀ s s', OneByteChanged s s' → c16 cfg s' ≠ c16 cfg s := fun s s' h => by
    simp only [c16, h16, crc16Standard]
    exact crcFrom_detects (by omega) (by decide) _ h
  exact ⟨fun s s' h => d8 s s' h.oneByte, fun s s' h => d16 s s' h.oneByte,
    fun s s' _ h => d8 s s' h, fun s s' _ _ h => d16 s s' h⟩

/-- The default configuration is legal (R10). -/
theorem default_valid : ConfigValid Config.default :=
  ⟨by decide, by decide, standard_detects rfl rfl⟩

end Sys2Proof.Machine
end

