-- ==== Sys2Proof/Laws/Encoding.lean ====
section
/-!
SUPPORT. The bits of a command word built from its fields (R60), and what a decoded word's `op` is.
-/

namespace Sys2Proof

/-- Where each bit of an assembled word comes from (R60). -/
theorem getLsbD_assemble (op : BitVec 4) (w : Width) (rsv : BitVec 6) (h : Half) (a n d : Word)
    (i : Nat) :
    (assemble op w rsv h a n d).getLsbD i =
      if i < 4 then op.getLsbD i
      else if i < 10 then w.getLsbD (i - 4)
      else if i < 16 then rsv.getLsbD (i - 10)
      else if i < 32 then h.getLsbD (i - 16)
      else if i < 64 then a.getLsbD (i - 32)
      else if i < 96 then n.getLsbD (i - 64)
      else d.getLsbD (i - 96) := by
  simp only [assemble]
  change (((((((d ++ n : BitVec (32 + 32)) ++ a : BitVec (32 + 32 + 32)) ++ h
    : BitVec (32 + 32 + 32 + 16)) ++ rsv : BitVec (32 + 32 + 32 + 16 + 6)) ++ w
    : BitVec (32 + 32 + 32 + 16 + 6 + 6)) ++ op
    : BitVec (32 + 32 + 32 + 16 + 6 + 6 + 4)).getLsbD i) = _
  repeat rw [BitVec.getLsbD_append]
  grind

@[simp] theorem opField_assemble (op : BitVec 4) (w : Width) (rsv : BitVec 6) (h : Half)
    (a n d : Word) : opField (assemble op w rsv h a n d) = op := by
  apply BitVec.eq_of_getLsbD_eq
  intro i hi
  rw [opField, BitVec.getLsbD_extractLsb', getLsbD_assemble]
  simp [hi]

@[simp] theorem rsvField_assemble (op : BitVec 4) (w : Width) (rsv : BitVec 6) (h : Half)
    (a n d : Word) : rsvField (assemble op w rsv h a n d) = rsv := by
  apply BitVec.eq_of_getLsbD_eq
  intro i hi
  rw [rsvField, BitVec.getLsbD_extractLsb', getLsbD_assemble, if_neg (by omega), if_neg (by omega),
    if_pos (by omega)]
  simp [hi]

/-- `op` alone selects the operation (R67). -/
theorem decode_opcode {c : Wide} {i : Instr} (h : decode c = .ok i) : opField c = opcode i := by
  unfold decode at h
  split at h <;> cases h <;> exact BitVec.eq_of_toNat_eq ‹_›

/-- Which words select none: exactly those whose `op` is 0 or above 10 (R67). -/
theorem decode_illegal {c : Wide} : (∃ e, decode c = .error e) ↔
    opField c = 0 ∨ 0xB ≤ (opField c).toNat := by
  rcases h : decode c with e | i
  · simp only [Except.error.injEq, exists_eq', true_iff]
    by_contra hc
    rw [not_or, ← BitVec.toNat_inj] at hc
    have h0 : (opField c).toNat ≠ 0 := hc.1
    unfold decode at h
    split at h <;> try cases h
    grind
  · simp only [reduceCtorEq, exists_false, false_iff]
    rw [decode_opcode h]
    cases i <;> simp [opcode]

end Sys2Proof
end

