-- ==== Sys2Proof/Laws/State.lean ====
section
/-!
SUPPORT. One lemma per field per update of the state, so that no proof unfolds a record update.
-/

namespace Sys2Proof.Machine

@[simp] theorem State.done_seq (s : State) (status : Status) (v0 v1 v2 : Word) :
    (s.done status v0 v1 v2).seq = s.seq := rfl

@[simp] theorem State.done_buf (s : State) (status : Status) (v0 v1 v2 : Word) :
    (s.done status v0 v1 v2).buf = s.buf := rfl

@[simp] theorem State.done_errlog (s : State) (status : Status) (v0 v1 v2 : Word) :
    (s.done status v0 v1 v2).errlog = s.errlog := rfl

@[simp] theorem State.done_errRead (s : State) (status : Status) (v0 v1 v2 : Word) :
    (s.done status v0 v1 v2).errRead = s.errRead := rfl

@[simp] theorem State.done_out (s : State) (status : Status) (v0 v1 v2 : Word) :
    (s.done status v0 v1 v2).out = .response { status := status, r0 := v0, r1 := v1, r2 := v2 } := rfl

@[simp] theorem State.done_script (s : State) (status : Status) (v0 v1 v2 : Word) :
    (s.done status v0 v1 v2).script = s.script := rfl

@[simp] theorem State.done_epoch (s : State) (status : Status) (v0 v1 v2 : Word) :
    (s.done status v0 v1 v2).epoch = s.epoch := rfl

@[simp] theorem State.done_cfg (s : State) (status : Status) (v0 v1 v2 : Word) :
    (s.done status v0 v1 v2).cfg = s.cfg := rfl

@[simp] theorem State.raise_seq (s : State) (status : Status) :
    (s.raise status).seq = s.seq := rfl

@[simp] theorem State.raise_buf (s : State) (status : Status) :
    (s.raise status).buf = s.buf := rfl

@[simp] theorem State.raise_errlog (s : State) (status : Status) :
    (s.raise status).errlog = s.errlog := rfl

@[simp] theorem State.raise_errRead (s : State) (status : Status) :
    (s.raise status).errRead = s.errRead := rfl

@[simp] theorem State.raise_out (s : State) (status : Status) :
    (s.raise status).out = .response { status := status, r0 := 0, r1 := 0, r2 := 0 } := rfl

@[simp] theorem State.raise_script (s : State) (status : Status) :
    (s.raise status).script = s.script := rfl

@[simp] theorem State.raise_epoch (s : State) (status : Status) :
    (s.raise status).epoch = s.epoch := rfl

@[simp] theorem State.raise_cfg (s : State) (status : Status) :
    (s.raise status).cfg = s.cfg := rfl

@[simp] theorem State.emit_seq (s : State) (kind : EventKind) (q : Byte) :
    (s.emit kind q).seq = s.seq := rfl

@[simp] theorem State.emit_buf (s : State) (kind : EventKind) (q : Byte) :
    (s.emit kind q).buf = s.buf := rfl

@[simp] theorem State.emit_errlog (s : State) (kind : EventKind) (q : Byte) :
    (s.emit kind q).errlog = s.errlog ++ [{ kind := kind, seq := q }] := rfl

@[simp] theorem State.emit_errRead (s : State) (kind : EventKind) (q : Byte) :
    (s.emit kind q).errRead = s.errRead := rfl

@[simp] theorem State.emit_out (s : State) (kind : EventKind) (q : Byte) :
    (s.emit kind q).out = s.out := rfl

@[simp] theorem State.emit_script (s : State) (kind : EventKind) (q : Byte) :
    (s.emit kind q).script = s.script := rfl

@[simp] theorem State.emit_epoch (s : State) (kind : EventKind) (q : Byte) :
    (s.emit kind q).epoch = s.epoch := rfl

@[simp] theorem State.emit_cfg (s : State) (kind : EventKind) (q : Byte) :
    (s.emit kind q).cfg = s.cfg := rfl

@[simp] theorem State.bumpSeq_seq (s : State) :
    s.bumpSeq.seq = s.seq + 1 := rfl

@[simp] theorem State.bumpSeq_buf (s : State) :
    s.bumpSeq.buf = s.buf := rfl

@[simp] theorem State.bumpSeq_errlog (s : State) :
    s.bumpSeq.errlog = s.errlog := rfl

@[simp] theorem State.bumpSeq_errRead (s : State) :
    s.bumpSeq.errRead = s.errRead := rfl

@[simp] theorem State.bumpSeq_out (s : State) :
    s.bumpSeq.out = s.out := rfl

@[simp] theorem State.bumpSeq_script (s : State) :
    s.bumpSeq.script = s.script := rfl

@[simp] theorem State.bumpSeq_epoch (s : State) :
    s.bumpSeq.epoch = s.epoch := rfl

@[simp] theorem State.bumpSeq_cfg (s : State) :
    s.bumpSeq.cfg = s.cfg := rfl

@[simp] theorem State.memWrite_seq (s : State) (addr : Nat) (bytes : List Byte) :
    (s.memWrite addr bytes).seq = s.seq := rfl

@[simp] theorem State.memWrite_buf (s : State) (addr : Nat) (bytes : List Byte) :
    (s.memWrite addr bytes).buf = s.buf.write addr bytes := rfl

@[simp] theorem State.memWrite_errlog (s : State) (addr : Nat) (bytes : List Byte) :
    (s.memWrite addr bytes).errlog = s.errlog := rfl

@[simp] theorem State.memWrite_errRead (s : State) (addr : Nat) (bytes : List Byte) :
    (s.memWrite addr bytes).errRead = s.errRead := rfl

@[simp] theorem State.memWrite_out (s : State) (addr : Nat) (bytes : List Byte) :
    (s.memWrite addr bytes).out = s.out := rfl

@[simp] theorem State.memWrite_script (s : State) (addr : Nat) (bytes : List Byte) :
    (s.memWrite addr bytes).script = s.script := rfl

@[simp] theorem State.memWrite_epoch (s : State) (addr : Nat) (bytes : List Byte) :
    (s.memWrite addr bytes).epoch = s.epoch := rfl

@[simp] theorem State.memWrite_cfg (s : State) (addr : Nat) (bytes : List Byte) :
    (s.memWrite addr bytes).cfg = s.cfg := rfl

@[simp] theorem State.resetAction_seq (s : State) :
    s.resetAction.seq = 0 := rfl

@[simp] theorem State.resetAction_buf (s : State) :
    s.resetAction.buf = [] := rfl

@[simp] theorem State.resetAction_errlog (s : State) :
    s.resetAction.errlog = [] := rfl

@[simp] theorem State.resetAction_errRead (s : State) :
    s.resetAction.errRead = 0 := rfl

@[simp] theorem State.resetAction_out (s : State) :
    s.resetAction.out = .nothing := rfl

@[simp] theorem State.resetAction_script (s : State) :
    s.resetAction.script = s.script := rfl

@[simp] theorem State.resetAction_epoch (s : State) :
    s.resetAction.epoch = s.epoch + 1 := rfl

@[simp] theorem State.resetAction_cfg (s : State) :
    s.resetAction.cfg = s.cfg := rfl

end Sys2Proof.Machine
end

