-- ==== Sys2Proof/Laws/Memory.lean ====
section
/-!
SUPPORT. Reading and writing `BUF` (R15): a read after a write, the canonical form, and the bounds.
-/

namespace Sys2Proof.Machine

theorem Memory.mem_cellsFrom {addr : Nat} {bytes : List Byte} {cell : Host.Cell}
    (h : cell ∈ Memory.cellsFrom addr bytes) :
    addr ≤ cell.1 ∧ cell.1 < addr + bytes.length := by
  induction bytes generalizing addr with
  | nil => simp [Memory.cellsFrom] at h
  | cons b rest ih =>
    simp only [Memory.cellsFrom, List.mem_cons] at h
    rcases h with rfl | h
    · simp
    · have := ih h
      simp only [List.length_cons]
      omega

theorem Memory.cellsFrom_wf (addr : Nat) (bytes : List Byte) :
    Memory.wf (Memory.cellsFrom addr bytes) := by
  induction bytes generalizing addr with
  | nil => exact List.Pairwise.nil
  | cons b rest ih =>
    refine List.pairwise_cons.2 ⟨fun cell hc => ?_, ih (addr + 1)⟩
    have := Memory.mem_cellsFrom hc
    simp only
    omega

/-- A write keeps the canonical form. -/
theorem Memory.write_wf {m : Memory} (hm : m.wf) (addr : Nat) (bytes : List Byte) :
    (m.write addr bytes).wf := by
  refine List.pairwise_append.2 ⟨List.pairwise_append.2 ⟨hm.filter _, cellsFrom_wf addr bytes, ?_⟩,
    hm.filter _, ?_⟩
  · intro x hx y hy
    have h1 := of_decide_eq_true (List.mem_filter.1 hx).2
    have h2 := Memory.mem_cellsFrom hy
    omega
  · intro x hx y hy
    have h2 := of_decide_eq_true (List.mem_filter.1 hy).2
    rcases List.mem_append.1 hx with hx | hx
    · have h1 := of_decide_eq_true (List.mem_filter.1 hx).2
      omega
    · have h1 := Memory.mem_cellsFrom hx
      omega

/-- A write inside a bound keeps every listed address below it. -/
theorem Memory.write_below {m : Memory} {bound addr : Nat} {bytes : List Byte}
    (hm : ∀ cell ∈ m, cell.1 < bound) (hb : addr + bytes.length ≤ bound) :
    ∀ cell ∈ m.write addr bytes, cell.1 < bound := by
  intro cell hc
  simp only [Memory.write, List.mem_append, List.mem_filter] at hc
  rcases hc with (hc | hc) | hc
  · exact hm _ hc.1
  · have := Memory.mem_cellsFrom hc
    omega
  · exact hm _ hc.1

theorem Memory.read?_append (m m' : Memory) (x : Nat) :
    Memory.read? (m ++ m') x = (Memory.read? m x).or (Memory.read? m' x) := by
  induction m with
  | nil => rfl
  | cons cell rest ih =>
    obtain ⟨y, b⟩ := cell
    simp only [List.cons_append, Memory.read?]
    split
    · rfl
    · exact ih

/-- Keeping the cells whose address passes a test does not change what the passing addresses read. -/
theorem Memory.read?_filter (m : Memory) (p : Nat → Bool) (x : Nat) :
    Memory.read? (m.filter (fun cell => p cell.1)) x = if p x then Memory.read? m x else none := by
  induction m with
  | nil => simp [Memory.read?]
  | cons cell rest ih =>
    obtain ⟨y, b⟩ := cell
    by_cases hxy : x = y
    · subst hxy
      cases hp : p x
      · simpa [List.filter_cons, hp, Memory.read?] using ih
      · simp [hp, Memory.read?]
    · cases hp : p y <;> simp [hp, Memory.read?, hxy, ih]

theorem Memory.read?_cellsFrom (addr : Nat) (bytes : List Byte) (x : Nat) :
    Memory.read? (Memory.cellsFrom addr bytes) x = if x < addr then none else bytes[x - addr]? := by
  induction bytes generalizing addr with
  | nil => simp [Memory.cellsFrom, Memory.read?]
  | cons b rest ih =>
    simp only [Memory.cellsFrom, Memory.read?, ih]
    by_cases h : x = addr
    · simp [h]
    · by_cases h2 : x < addr
      · simp [h, h2, Nat.lt_succ_of_lt h2]
      · have h3 : ¬ x < addr + 1 := by omega
        have h4 : x - addr = (x - (addr + 1)) + 1 := by omega
        simp [h, h2, h3, h4]

/-- What an address reads after a write (R15): the byte written to it, else what it read before. -/
theorem Memory.read?_write (m : Memory) (addr : Nat) (bytes : List Byte) (x : Nat) :
    Memory.read? (m.write addr bytes) x =
      if addr ≤ x ∧ x < addr + bytes.length then bytes[x - addr]? else Memory.read? m x := by
  have h1 := Memory.read?_filter m (fun y => decide (y < addr)) x
  have h2 := Memory.read?_filter m (fun y => decide (addr + bytes.length ≤ y)) x
  simp only [Memory.write, Memory.read?_append, Memory.read?_cellsFrom, h1, h2]
  by_cases hlo : x < addr
  · have : ¬ (addr + bytes.length ≤ x) := by omega
    have h3 : ¬ (addr ≤ x ∧ x < addr + bytes.length) := by omega
    simp [hlo, this, h3]
  · by_cases hhi : addr + bytes.length ≤ x
    · have h3 : ¬ (addr ≤ x ∧ x < addr + bytes.length) := by omega
      have h4 : bytes[x - addr]? = none := List.getElem?_eq_none (by omega)
      simp [hlo, hhi, h3, h4]
    · have h3 : addr ≤ x ∧ x < addr + bytes.length := by omega
      simp [hlo, hhi, h3]

/-- `BUF[x]` after a `MemWrite` (R15). -/
theorem State.byteAt_memWrite (s : State) (addr : Nat) (bytes : List Byte) (x : Nat) :
    (s.memWrite addr bytes).byteAt x =
      if addr ≤ x ∧ x < addr + bytes.length then bytes.getD (x - addr) 0 else s.byteAt x := by
  simp only [State.byteAt, State.memWrite_buf, State.memWrite_epoch, Memory.read?_write]
  by_cases h : addr ≤ x ∧ x < addr + bytes.length
  · have : x - addr < bytes.length := by omega
    simp [h, List.getD, List.getElem?_eq_getElem this]
  · simp [h]

/-- `BUF[x]` depends on the written bytes and the epoch alone. -/
theorem State.byteAt_congr {s t : State} (hb : t.buf = s.buf) (he : t.epoch = s.epoch) (x : Nat) :
    t.byteAt x = s.byteAt x := by
  simp [State.byteAt, hb, he]

@[simp] theorem State.byteAt_done (s : State) (status : Status) (v0 v1 v2 : Word) (x : Nat) :
    (s.done status v0 v1 v2).byteAt x = s.byteAt x := rfl

@[simp] theorem State.byteAt_raise (s : State) (status : Status) (x : Nat) :
    (s.raise status).byteAt x = s.byteAt x := rfl

@[simp] theorem State.byteAt_emit (s : State) (kind : EventKind) (q : Byte) (x : Nat) :
    (s.emit kind q).byteAt x = s.byteAt x := rfl

@[simp] theorem State.byteAt_bumpSeq (s : State) (x : Nat) :
    s.bumpSeq.byteAt x = s.byteAt x := rfl

@[simp] theorem State.length_memRead (s : State) (addr n : Nat) :
    (s.memRead addr n).length = n := by
  induction n generalizing addr with
  | zero => rfl
  | succ n ih => simp [State.memRead, ih]

/-- Element `i` of `MemRead(addr, n)` is `BUF[addr + i]` (R15). -/
theorem State.getElem?_memRead (s : State) (addr n i : Nat) :
    (s.memRead addr n)[i]? = if i < n then some (s.byteAt (addr + i)) else none := by
  induction n generalizing addr i with
  | zero => simp [State.memRead]
  | succ n ih =>
    cases i with
    | zero => simp [State.memRead]
    | succ i =>
      have : addr + 1 + i = addr + (i + 1) := by omega
      simp [State.memRead, ih, this]

theorem State.getElem_memRead (s : State) (addr n i : Nat) (h : i < (s.memRead addr n).length) :
    (s.memRead addr n)[i] = s.byteAt (addr + i) := by
  have h' : i < n := by simpa using h
  have := s.getElem?_memRead addr n i
  rw [List.getElem?_eq_getElem h, if_pos h'] at this
  exact Option.some.inj this

/-- States that agree on a range read the same bytes from it. -/
theorem State.memRead_congr {s t : State} {addr addr' n : Nat}
    (h : ∀ i, i < n → s.byteAt (addr + i) = t.byteAt (addr' + i)) :
    s.memRead addr n = t.memRead addr' n := by
  apply List.ext_getElem? fun i => ?_
  rw [State.getElem?_memRead, State.getElem?_memRead]
  split
  · rw [h i ‹_›]
  · rfl

/-- A prefix of a range is read first. -/
theorem State.memRead_add (s : State) (addr n k : Nat) :
    s.memRead addr (n + k) = s.memRead addr n ++ s.memRead (addr + n) k := by
  induction n generalizing addr with
  | zero => simp [State.memRead]
  | succ n ih =>
    have h1 : n + 1 + k = (n + k) + 1 := by omega
    have h2 : addr + 1 + n = addr + (n + 1) := by omega
    simp [h1, State.memRead, ih, h2]

/-- Reading back exactly what was written. -/
theorem State.memRead_memWrite (s : State) (addr : Nat) (bytes : List Byte) :
    (s.memWrite addr bytes).memRead addr bytes.length = bytes := by
  apply List.ext_getElem? fun i => ?_
  rw [State.getElem?_memRead, State.byteAt_memWrite]
  by_cases h : i < bytes.length
  · have h2 : addr ≤ addr + i ∧ addr + i < addr + bytes.length := by omega
    simp [h, h2]
  · simp [h]

end Sys2Proof.Machine
end

