-- ==== Sys2Proof/Laws/Operands.lean ====
section
/-!
SUPPORT. Bits of a field and of the bytes it lies in (R43, R121 to R126), and 16-bit values and their
bytes (R14).
-/

namespace Sys2Proof.Machine

@[simp] theorem le16_lo8_hi8 (v : Half) : le16 (lo8 v) (hi8 v) = v := by
  apply BitVec.eq_of_getLsbD_eq fun i hi => ?_
  change (hi8 v ++ lo8 v : BitVec (8 + 8)).getLsbD i = _
  rw [BitVec.getLsbD_append]
  by_cases h8 : i < 8
  · simp [h8, lo8]
  · have h1 : 8 + (i - 8) = i := by omega
    have h2 : i - 8 < 8 := by omega
    simp [h8, hi8, h1, h2]

@[simp] theorem lo8_le16 (b0 b1 : Byte) : lo8 (le16 b0 b1) = b0 := by
  apply BitVec.eq_of_getLsbD_eq fun i hi => ?_
  simp only [lo8, BitVec.getLsbD_extractLsb', hi, decide_true, Bool.true_and, Nat.zero_add]
  change (b1 ++ b0 : BitVec (8 + 8)).getLsbD i = _
  rw [BitVec.getLsbD_append]
  simp [hi]

@[simp] theorem hi8_le16 (b0 b1 : Byte) : hi8 (le16 b0 b1) = b1 := by
  apply BitVec.eq_of_getLsbD_eq fun i hi => ?_
  simp only [hi8, BitVec.getLsbD_extractLsb', hi, decide_true, Bool.true_and]
  change (b1 ++ b0 : BitVec (8 + 8)).getLsbD (8 + i) = _
  rw [BitVec.getLsbD_append]
  simp

theorem le16_toNat (b0 b1 : Byte) : (le16 b0 b1).toNat = b0.toNat + 256 * b1.toNat := by
  have h0 := b0.isLt
  simp only [le16, BitVec.toNat_append]
  rw [← Nat.shiftLeft_add_eq_or_of_lt h0, Nat.shiftLeft_eq]
  omega

/-- Bit `i` of a field value is absolute bit `P + i` (R43). -/
theorem State.testBit_fieldValue (s : State) (P w i : Nat) :
    (s.fieldValue P w).testBit i = (decide (i < w) && s.bitAt (P + i)) := by
  induction w generalizing P i with
  | zero => simp [State.fieldValue]
  | succ w ih =>
    cases i with
    | zero =>
      rw [Nat.testBit_zero]
      cases h : s.bitAt P <;> simp [State.fieldValue, h]
    | succ i =>
      have h1 : ((s.bitAt P).toNat + 2 * s.fieldValue (P + 1) w) / 2 = s.fieldValue (P + 1) w := by
        cases s.bitAt P
        · simp
        · simp
          omega
      have h2 : P + 1 + i = P + (i + 1) := by omega
      simp [State.fieldValue, Nat.testBit_succ, h1, ih, h2]

theorem State.fieldValue_lt (s : State) (P w : Nat) : s.fieldValue P w < 2 ^ w := by
  induction w generalizing P with
  | zero => simp [State.fieldValue]
  | succ w ih =>
    have := ih (P + 1)
    have h1 : (s.bitAt P).toNat ≤ 1 := Bool.toNat_le _
    simp only [State.fieldValue, Nat.pow_succ]
    omega

/-- Bit `q` of a little-endian integer is bit `q mod 8` of byte `q div 8` (R43). -/
theorem testBit_leNat (bytes : List Byte) (q : Nat) :
    (leNat bytes).testBit q = (bytes.getD (q / 8) 0).getLsbD (q % 8) := by
  induction bytes generalizing q with
  | nil => simp [leNat]
  | cons b rest ih =>
    have hb := b.isLt
    have h256 : 256 * leNat rest = leNat rest * 2 ^ 8 := by omega
    have hsum : leNat (b :: rest) = (leNat rest <<< 8) ||| b.toNat := by
      rw [← Nat.shiftLeft_add_eq_or_of_lt hb, Nat.shiftLeft_eq]
      simp only [leNat]
      omega
    rw [hsum, Nat.testBit_or, Nat.testBit_shiftLeft]
    by_cases hq : q < 8
    · have h1 : q / 8 = 0 := by omega
      have h2 : q % 8 = q := by omega
      simp [h1, h2, Nat.not_le.2 hq, BitVec.getLsbD]
    · have h1 : q / 8 = (q - 8) / 8 + 1 := by omega
      have h2 : (q - 8) % 8 = q % 8 := by omega
      have h3 : b.toNat.testBit q = false :=
        Nat.testBit_lt_two_pow (Nat.lt_of_lt_of_le hb (Nat.pow_le_pow_right (by omega) (by omega)))
      simp [h1, h2, h3, ih, Nat.le_of_not_lt hq]

@[simp] theorem length_leBytes (k X : Nat) : (leBytes k X).length = k := by
  induction k generalizing X with
  | zero => rfl
  | succ k ih => simp [leBytes, ih]

/-- Byte `j` is `(X >> 8j) mod 256` (R124). -/
theorem getD_leBytes (k X j : Nat) (hj : j < k) :
    (leBytes k X).getD j 0 = BitVec.ofNat 8 (X >>> (8 * j)) := by
  induction k generalizing X j with
  | zero => omega
  | succ k ih =>
    cases j with
    | zero => simp [leBytes]
    | succ j =>
      have h8 : X / 256 = X >>> 8 := by rw [Nat.shiftRight_eq_div_pow]
      have h1 : 8 + 8 * j = 8 * (j + 1) := by omega
      simp only [leBytes, List.getD_cons_succ]
      rw [ih _ _ (by omega), h8, ← Nat.shiftRight_add, h1]

theorem length_fieldBytes (s : State) (P w v : Nat) :
    (s.fieldBytes P w v).length = touched P w := by
  simp [State.fieldBytes]

/-- A field of legal width lies in the bytes it touches (R121). -/
theorem field_in_touched {P w : Nat} (hw : 1 ≤ w) :
    8 * firstByte P ≤ P ∧ P + w ≤ 8 * (firstByte P + touched P w) := by
  simp only [firstByte, touched, lastByte]
  omega

theorem touched_pos (P w : Nat) : 1 ≤ touched P w := by
  simp only [touched]
  omega

theorem firstByte_add_touched {P w : Nat} (hw : 1 ≤ w) :
    firstByte P + touched P w = lastByte P w + 1 := by
  simp only [firstByte, touched, lastByte]
  omega

/-- Bit `q` of the merged value: the new field inside, the old bits outside (R124). -/
theorem testBit_mergeField (k sh w X t q : Nat) (hq : q < 8 * k) (ht : t < 2 ^ w) :
    (mergeField k sh w X t).testBit q =
      if sh ≤ q ∧ q < sh + w then t.testBit (q - sh) else X.testBit q := by
  simp only [mergeField, Nat.testBit_or, Nat.testBit_and, Nat.testBit_xor, Nat.testBit_two_pow_sub_one,
    Nat.testBit_mul_two_pow]
  by_cases h1 : sh ≤ q
  · by_cases h2 : q < sh + w
    · have h3 : q - sh < w := by omega
      simp [h1, h2, h3, hq]
    · have h3 : ¬ q - sh < w := by omega
      have h4 : t.testBit (q - sh) = false :=
        Nat.testBit_lt_two_pow (Nat.lt_of_lt_of_le ht (Nat.pow_le_pow_right (by omega) (by omega)))
      simp [h1, h2, h3, h4, hq]
  · simp [h1, hq]

/-- The bits of `BUF` after a field is written: the field holds `v mod 2^w`, every other bit is as
before (R124 to R126). -/
theorem State.bitAt_write_field (s : State) (P w v Q : Nat) (hw : 1 ≤ w) :
    (s.memWrite (firstByte P) (s.fieldBytes P w v)).bitAt Q =
      if P ≤ Q ∧ Q < P + w then v.testBit (Q - P) else s.bitAt Q := by
  have hft := field_in_touched (P := P) hw
  simp only [State.bitAt, State.byteAt_memWrite, length_fieldBytes]
  by_cases hin : firstByte P ≤ Q / 8 ∧ Q / 8 < firstByte P + touched P w
  · rw [if_pos hin]
    have hj : Q / 8 - firstByte P < touched P w := by omega
    have hq : 8 * (Q / 8 - firstByte P) + Q % 8 < 8 * touched P w := by omega
    have hQ8 : Q % 8 < 8 := by omega
    simp only [State.fieldBytes]
    rw [getD_leBytes _ _ _ hj, BitVec.getLsbD_ofNat, Nat.testBit_shiftRight,
      testBit_mergeField _ _ _ _ _ _ hq (Nat.mod_lt _ (Nat.two_pow_pos w)), testBit_leNat]
    have h5 : (8 * (Q / 8 - firstByte P) + Q % 8) / 8 = Q / 8 - firstByte P := by omega
    have h6 : (8 * (Q / 8 - firstByte P) + Q % 8) % 8 = Q % 8 := by omega
    have h7 : firstByte P + (Q / 8 - firstByte P) = Q / 8 := by omega
    have hold : ((s.memRead (firstByte P) (touched P w)).getD (Q / 8 - firstByte P) 0)
        = s.byteAt (Q / 8) := by
      simp [List.getD, State.getElem_memRead, hj, h7]
    rw [h5, h6, hold]
    by_cases hf : P ≤ Q ∧ Q < P + w
    · have h8 : P % 8 ≤ 8 * (Q / 8 - firstByte P) + Q % 8 ∧
          8 * (Q / 8 - firstByte P) + Q % 8 < P % 8 + w := by
        simp only [firstByte] at *
        omega
      have h9 : 8 * (Q / 8 - firstByte P) + Q % 8 - P % 8 = Q - P := by
        simp only [firstByte] at *
        omega
      have h10 : Q - P < w := by omega
      simp [hQ8, hf, h8, h9, Nat.testBit_mod_two_pow, h10]
    · have h8 : ¬ (P % 8 ≤ 8 * (Q / 8 - firstByte P) + Q % 8 ∧
          8 * (Q / 8 - firstByte P) + Q % 8 < P % 8 + w) := by
        simp only [firstByte] at *
        omega
      rw [if_neg hf, if_neg h8]
      simp [hQ8]
  · rw [if_neg hin]
    have hf : ¬ (P ≤ Q ∧ Q < P + w) := by
      simp only [firstByte] at *
      omega
    rw [if_neg hf]

/-- Two states whose bits agree on a field hold the same value in it. -/
theorem State.fieldValue_congr {s t : State} {P w : Nat}
    (h : ∀ i, i < w → s.bitAt (P + i) = t.bitAt (P + i)) : s.fieldValue P w = t.fieldValue P w := by
  apply Nat.eq_of_testBit_eq fun i => ?_
  rw [State.testBit_fieldValue, State.testBit_fieldValue]
  by_cases hi : i < w
  · simp [hi, h i hi]
  · simp [hi]

/-- Two bytes with equal bits are equal. -/
theorem State.byteAt_eq_of_bits {s t : State} {x : Nat}
    (h : ∀ j, j < 8 → s.bitAt (8 * x + j) = t.bitAt (8 * x + j)) : s.byteAt x = t.byteAt x := by
  apply BitVec.eq_of_getLsbD_eq fun j hj => ?_
  have := h j hj
  have h1 : (8 * x + j) / 8 = x := by omega
  have h2 : (8 * x + j) % 8 = j := by omega
  simpa [State.bitAt, h1, h2] using this

end Sys2Proof.Machine
end

