-- ==== Sys2Proof/Laws/Exec.lean ====
section
/-!
SUPPORT. What each meaning can do, said once: if it answers a next state, one of these cases holds.
-/

namespace Sys2Proof.Machine

variable {s t : State}

theorem execCrc8_cases {a n : Word} (h : execCrc8 a n s = .next t) :
    (¬ s.inRange a.toNat n.toNat ∧ t = s.raise .errRange) ∨
    (s.inRange a.toNat n.toNat ∧
      t = s.done .ok ((c8 s.cfg (s.memRead a.toNat n.toNat)).setWidth 32) 0 0) := by
  unfold execCrc8 at h
  split at h <;> cases h
  · exact .inl ⟨‹_›, rfl⟩
  · exact .inr ⟨Decidable.not_not.1 ‹_›, rfl⟩

theorem execCrc16_cases {a n : Word} (h : execCrc16 a n s = .next t) :
    (¬ s.inRange a.toNat n.toNat ∧ t = s.raise .errRange) ∨
    (s.inRange a.toNat n.toNat ∧
      t = s.done .ok ((c16 s.cfg (s.memRead a.toNat n.toNat)).setWidth 32) 0 0) := by
  unfold execCrc16 at h
  split at h <;> cases h
  · exact .inl ⟨‹_›, rfl⟩
  · exact .inr ⟨Decidable.not_not.1 ‹_›, rfl⟩

theorem execVcrc8_cases {a n : Word} (h : execVcrc8 a n s = .next t) :
    (¬ s.inRange a.toNat (n.toNat + 1) ∧ t = s.raise .errRange) ∨
    (s.inRange a.toNat (n.toNat + 1) ∧
      t = s.done .ok (matchWord (c8 s.cfg (s.memRead a.toNat n.toNat)
        == s.byteAt (a.toNat + n.toNat))) 0 0) := by
  unfold execVcrc8 at h
  split at h <;> cases h
  · exact .inl ⟨‹_›, rfl⟩
  · exact .inr ⟨Decidable.not_not.1 ‹_›, rfl⟩

theorem execVcrc16_cases {a n : Word} (h : execVcrc16 a n s = .next t) :
    (¬ s.inRange a.toNat (n.toNat + 2) ∧ t = s.raise .errRange) ∨
    (s.inRange a.toNat (n.toNat + 2) ∧
      t = s.done .ok (matchWord (c16 s.cfg (s.memRead a.toNat n.toNat)
        == le16 (s.byteAt (a.toNat + n.toNat)) (s.byteAt (a.toNat + n.toNat + 1)))) 0 0) := by
  unfold execVcrc16 at h
  split at h <;> cases h
  · exact .inl ⟨‹_›, rfl⟩
  · exact .inr ⟨Decidable.not_not.1 ‹_›, rfl⟩

theorem execGetbits_cases {a : Word} {h : Half} {w : Width} (e : execGetbits a h w s = .next t) :
    (¬ legalWidth w ∧ t = s.raise .errArg) ∨
    (legalWidth w ∧ s.cfg.bufSize ≤ lastByte (bitPos a h) w.toNat ∧ t = s.raise .errRange) ∨
    (legalWidth w ∧ lastByte (bitPos a h) w.toNat < s.cfg.bufSize ∧
      t = s.done .ok (BitVec.ofNat 32 (s.fieldValue (bitPos a h) w.toNat)) 0 0) := by
  unfold execGetbits at e
  split at e
  · cases e
    exact .inl ⟨‹_›, rfl⟩
  · split at e <;> cases e
    · exact .inr (.inl ⟨Decidable.not_not.1 ‹_›, ‹_›, rfl⟩)
    · exact .inr (.inr ⟨Decidable.not_not.1 ‹_›, Nat.lt_of_not_le ‹_›, rfl⟩)

theorem execSetbits_cases {v a : Word} {h : Half} {w : Width} (e : execSetbits v a h w s = .next t) :
    (¬ legalWidth w ∧ t = s.raise .errArg) ∨
    (legalWidth w ∧ s.cfg.bufSize ≤ lastByte (bitPos a h) w.toNat ∧ t = s.raise .errRange) ∨
    (legalWidth w ∧ lastByte (bitPos a h) w.toNat < s.cfg.bufSize ∧
      t = (s.memWrite (firstByte (bitPos a h))
        (s.fieldBytes (bitPos a h) w.toNat v.toNat)).done .ok 0 0 0) := by
  unfold execSetbits at e
  split at e
  · cases e
    exact .inl ⟨‹_›, rfl⟩
  · split at e <;> cases e
    · exact .inr (.inl ⟨Decidable.not_not.1 ‹_›, ‹_›, rfl⟩)
    · exact .inr (.inr ⟨Decidable.not_not.1 ‹_›, Nat.lt_of_not_le ‹_›, rfl⟩)

theorem copyBytes_cases {a n d : Word} (h : copyBytes a n d s = .next t) :
    (¬ (s.inRange a.toNat n.toNat ∧ s.inRange d.toNat n.toNat) ∧ t = s.raise .errRange) ∨
    (s.inRange a.toNat n.toNat ∧ s.inRange d.toNat n.toNat ∧
      t = (s.memWrite d.toNat (s.memRead a.toNat n.toNat)).done .ok 0 0 0) := by
  unfold copyBytes at h
  split at h <;> cases h
  · exact .inl ⟨by tauto, rfl⟩
  · exact .inr ⟨by tauto, by tauto, rfl⟩

theorem execFenc_cases {h : Half} {a n d : Word} (e : execFenc h a n d s = .next t) :
    (¬ legalLength n ∧ t = s.raise .errArg) ∨
    (legalLength n ∧ ¬ (s.inRange a.toNat n.toNat ∧ s.inRange d.toNat (9 + n.toNat)) ∧
      t = s.raise .errRange) ∨
    (legalLength n ∧ s.inRange a.toNat n.toNat ∧ s.inRange d.toNat (9 + n.toNat) ∧
      t = ((s.memWrite d.toNat (frameBytes s.cfg h (n.setWidth 16) (seqUsed s)
        (s.memRead a.toNat n.toNat))).bumpSeq).done .ok (9 + n) d (seqWord (seqUsed s))) := by
  unfold execFenc at e
  split at e
  · cases e
    exact .inl ⟨‹_›, rfl⟩
  · split at e <;> cases e
    · exact .inr (.inl ⟨Decidable.not_not.1 ‹_›, by tauto, rfl⟩)
    · exact .inr (.inr ⟨Decidable.not_not.1 ‹_›, by tauto, by tauto, rfl⟩)

/-- The declared length of the frame at `A` (R69). -/
def declaredLength (s : State) (A : Nat) : Nat := (le16 (s.byteAt (A + 1)) (s.byteAt (A + 2))).toNat

theorem execFdec_cases {a n : Word} (e : execFdec a n s = .next t) :
    (¬ s.inRange a.toNat n.toNat ∧ t = s.raise .errRange) ∨
    (s.inRange a.toNat n.toNat ∧ (n.toNat < 1 ∨ s.byteAt a.toNat ≠ sof) ∧
      t = s.done .rejSof 0 0 0) ∨
    (s.inRange a.toNat n.toNat ∧ 1 ≤ n.toNat ∧ s.byteAt a.toNat = sof ∧ n.toNat < 5 ∧
      t = s.done .rejTrunc 0 0 0) ∨
    (s.inRange a.toNat n.toNat ∧ s.byteAt a.toNat = sof ∧ 5 ≤ n.toNat ∧
      c8 s.cfg (s.memRead a.toNat 4) ≠ s.byteAt (a.toNat + 4) ∧
      t = (s.emit .crc8 (s.byteAt (a.toNat + 3))).done .rejCrc8 0 0
        (seqWord (s.byteAt (a.toNat + 3)))) ∨
    (s.inRange a.toNat n.toNat ∧ s.byteAt a.toNat = sof ∧ 5 ≤ n.toNat ∧
      c8 s.cfg (s.memRead a.toNat 4) = s.byteAt (a.toNat + 4) ∧
      n.toNat < 9 + declaredLength s a.toNat ∧
      t = s.done .rejTrunc 0 0 0) ∨
    (s.inRange a.toNat n.toNat ∧ s.byteAt a.toNat = sof ∧
      c8 s.cfg (s.memRead a.toNat 4) = s.byteAt (a.toNat + 4) ∧
      9 + declaredLength s a.toNat ≤ n.toNat ∧
      c16 s.cfg (s.memRead a.toNat (7 + declaredLength s a.toNat)) ≠
        le16 (s.byteAt (a.toNat + 7 + declaredLength s a.toNat))
          (s.byteAt (a.toNat + 8 + declaredLength s a.toNat)) ∧
      t = (s.emit .crc16 (s.byteAt (a.toNat + 3))).done .rejCrc16 0 0
        (seqWord (s.byteAt (a.toNat + 3)))) ∨
    (s.inRange a.toNat n.toNat ∧ s.byteAt a.toNat = sof ∧
      c8 s.cfg (s.memRead a.toNat 4) = s.byteAt (a.toNat + 4) ∧
      9 + declaredLength s a.toNat ≤ n.toNat ∧
      c16 s.cfg (s.memRead a.toNat (7 + declaredLength s a.toNat)) =
        le16 (s.byteAt (a.toNat + 7 + declaredLength s a.toNat))
          (s.byteAt (a.toNat + 8 + declaredLength s a.toNat)) ∧
      t = s.done .ok ((le16 (s.byteAt (a.toNat + 5)) (s.byteAt (a.toNat + 6))).setWidth 32) (a + 7)
        ((le16 (s.byteAt (a.toNat + 1)) (s.byteAt (a.toNat + 2))).setWidth 32
          + seqWord (s.byteAt (a.toNat + 3)))) := by
  unfold execFdec at e
  simp only at e
  split at e
  · cases e
    exact .inl ⟨‹_›, rfl⟩
  rename_i hr
  replace hr := Decidable.not_not.1 hr
  split at e
  · cases e
    exact .inr (.inl ⟨hr, ‹_›, rfl⟩)
  rename_i hs
  have hn1 : 1 ≤ n.toNat := by
    by_contra hc
    exact hs (.inl (by omega))
  have hsof : s.byteAt a.toNat = sof := by
    by_contra hc
    exact hs (.inr hc)
  split at e
  · cases e
    exact .inr (.inr (.inl ⟨hr, hn1, hsof, ‹_›, rfl⟩))
  rename_i h5
  split at e
  · cases e
    exact .inr (.inr (.inr (.inl ⟨hr, hsof, by omega, ‹_›, rfl⟩)))
  rename_i hc8
  replace hc8 := Decidable.not_not.1 hc8
  split at e
  · cases e
    exact .inr (.inr (.inr (.inr (.inl ⟨hr, hsof, by omega, hc8, ‹_›, rfl⟩))))
  rename_i hL
  replace hL := Nat.le_of_not_lt hL
  split at e
  · cases e
    exact .inr (.inr (.inr (.inr (.inr (.inl ⟨hr, hsof, hc8, hL, ‹_›, rfl⟩)))))
  · cases e
    exact .inr (.inr (.inr (.inr (.inr (.inr ⟨hr, hsof, hc8, hL, Decidable.not_not.1 ‹_›, rfl⟩)))))

/-- The bytes of a built frame: nine and the data (R9, R69). -/
@[simp] theorem length_frameBytes (cfg : Config) (h len : Half) (q : Byte) (data : List Byte) :
    (frameBytes cfg h len q data).length = 9 + data.length := by
  simp [frameBytes, frameBody, frameHeader]
  omega

@[simp] theorem length_frameBody (cfg : Config) (h len : Half) (q : Byte) (data : List Byte) :
    (frameBody cfg h len q data).length = 7 + data.length := by
  simp [frameBody, frameHeader]
  omega

/-- No meaning stops. -/
theorem exec_next (i : Instr) (s : State) : ∃ t, exec i s = .next t := by
  cases i with
  | crc8 a n =>
    change ∃ t, execCrc8 a n s = .next t
    unfold execCrc8
    repeat' split
    all_goals exact ⟨_, rfl⟩
  | crc16 a n =>
    change ∃ t, execCrc16 a n s = .next t
    unfold execCrc16
    repeat' split
    all_goals exact ⟨_, rfl⟩
  | vcrc8 a n =>
    change ∃ t, execVcrc8 a n s = .next t
    unfold execVcrc8
    repeat' split
    all_goals exact ⟨_, rfl⟩
  | vcrc16 a n =>
    change ∃ t, execVcrc16 a n s = .next t
    unfold execVcrc16
    repeat' split
    all_goals exact ⟨_, rfl⟩
  | getbits a h w =>
    change ∃ t, execGetbits a h w s = .next t
    unfold execGetbits
    repeat' split
    all_goals exact ⟨_, rfl⟩
  | setbits v a h w =>
    change ∃ t, execSetbits v a h w s = .next t
    unfold execSetbits
    repeat' split
    all_goals exact ⟨_, rfl⟩
  | getbytes a n d =>
    change ∃ t, execGetbytes a n d s = .next t
    unfold execGetbytes copyBytes
    repeat' split
    all_goals exact ⟨_, rfl⟩
  | setbytes a n d =>
    change ∃ t, execSetbytes a n d s = .next t
    unfold execSetbytes copyBytes
    repeat' split
    all_goals exact ⟨_, rfl⟩
  | fenc h a n d =>
    change ∃ t, execFenc h a n d s = .next t
    unfold execFenc
    repeat' split
    all_goals exact ⟨_, rfl⟩
  | fdec a n =>
    change ∃ t, execFdec a n s = .next t
    unfold execFdec
    simp only
    repeat' split
    all_goals exact ⟨_, rfl⟩

end Sys2Proof.Machine
end

