-- ==== Sys2Proof/Laws/Inv.lean ====
section
/-!
SUPPORT. Each operation over the state keeps the invariant.
-/

namespace Sys2Proof.Machine

variable {s : State}

theorem State.Inv.done (h : s.Inv) {status : Status} {v0 v1 v2 : Word}
    (hl : Response.Lawful { status := status, r0 := v0, r1 := v1, r2 := v2 }) :
    (s.done status v0 v1 v2).Inv :=
  ⟨h.buf_wf, h.buf_below, h.errRead_le, fun r hr => by cases hr; exact hl⟩

theorem State.Inv.memWrite (h : s.Inv) {addr : Nat} {bytes : List Byte}
    (hr : s.inRange addr bytes.length) : (s.memWrite addr bytes).Inv :=
  ⟨Memory.write_wf h.buf_wf _ _, Memory.write_below h.buf_below hr, h.errRead_le, h.out_lawful⟩

theorem State.Inv.emit (h : s.Inv) (kind : EventKind) (q : Byte) : (s.emit kind q).Inv :=
  ⟨h.buf_wf, h.buf_below, by have := h.errRead_le; simp; omega, h.out_lawful⟩

theorem State.Inv.bumpSeq (h : s.Inv) : s.bumpSeq.Inv :=
  ⟨h.buf_wf, h.buf_below, h.errRead_le, h.out_lawful⟩

end Sys2Proof.Machine
end

