-- ==== Sys2Proof/Laws/PerInstr.lean ====
section
/-!
SUPPORT. What holds of the command word of every instruction, one lemma per constructor.
-/

namespace Sys2Proof.Laws

/-- The word of an instruction carries its operation's `op` (R63) and a reserved field of 0 (R60,
R72). -/
def OpField.Statement (i : Instr) : Prop :=
  opField (encode i) = opcode i ∧ rsvField (encode i) = 0

theorem OpField.crc8 (a n : Word) : OpField.Statement (.crc8 a n) :=
  ⟨opField_assemble .., rsvField_assemble ..⟩

theorem OpField.crc16 (a n : Word) : OpField.Statement (.crc16 a n) :=
  ⟨opField_assemble .., rsvField_assemble ..⟩

theorem OpField.vcrc8 (a n : Word) : OpField.Statement (.vcrc8 a n) :=
  ⟨opField_assemble .., rsvField_assemble ..⟩

theorem OpField.vcrc16 (a n : Word) : OpField.Statement (.vcrc16 a n) :=
  ⟨opField_assemble .., rsvField_assemble ..⟩

theorem OpField.getbits (a : Word) (h : Half) (w : Width) : OpField.Statement (.getbits a h w) :=
  ⟨opField_assemble .., rsvField_assemble ..⟩

theorem OpField.setbits (v a : Word) (h : Half) (w : Width) :
    OpField.Statement (.setbits v a h w) :=
  ⟨opField_assemble .., rsvField_assemble ..⟩

theorem OpField.getbytes (a n d : Word) : OpField.Statement (.getbytes a n d) :=
  ⟨opField_assemble .., rsvField_assemble ..⟩

theorem OpField.setbytes (a n d : Word) : OpField.Statement (.setbytes a n d) :=
  ⟨opField_assemble .., rsvField_assemble ..⟩

theorem OpField.fenc (h : Half) (a n d : Word) : OpField.Statement (.fenc h a n d) :=
  ⟨opField_assemble .., rsvField_assemble ..⟩

theorem OpField.fdec (a n : Word) : OpField.Statement (.fdec a n) :=
  ⟨opField_assemble .., rsvField_assemble ..⟩

end Sys2Proof.Laws
end

