-- ==== Sys2Proof/Laws/Step.lean ====
section
/-!
SUPPORT. What a step can do, said once, and what an operation leaves of the host's side.
-/

namespace Sys2Proof.Machine

variable {s t : State}

/-- No operation touches the host's script, its event pointer, the configuration or the epoch. -/
theorem exec_keeps {i : Instr} (h : exec i s = .next t) :
    t.script = s.script ∧ t.errRead = s.errRead ∧ t.cfg = s.cfg ∧ t.epoch = s.epoch := by
  cases i with
  | crc8 a n => rcases execCrc8_cases h with h | h <;> simp [h.2]
  | crc16 a n => rcases execCrc16_cases h with h | h <;> simp [h.2]
  | vcrc8 a n => rcases execVcrc8_cases h with h | h <;> simp [h.2]
  | vcrc16 a n => rcases execVcrc16_cases h with h | h <;> simp [h.2]
  | getbits a _ w => rcases execGetbits_cases h with h | h | h <;> simp [h]
  | setbits v a _ w => rcases execSetbits_cases h with h | h | h <;> simp [h]
  | getbytes a n d => rcases copyBytes_cases h with h | h <;> simp [h]
  | setbytes a n d => rcases copyBytes_cases h with h | h <;> simp [h]
  | fenc _ a n d => rcases execFenc_cases h with h | h | h <;> simp [h]
  | fdec a n => rcases execFdec_cases h with h | h | h | h | h | h | h <;> simp [h]

/-- Issuing a word runs the instruction it selects, or ends with `ERR_OP` (R67). -/
theorem issue_cases {c : Wide} (h : issue c s = .next t) :
    (∃ i, decode c = .ok i ∧ exec i s = .next t) ∨
    ((opField c = 0 ∨ 0xB ≤ (opField c).toNat) ∧ t = s.raise .errOp) := by
  unfold issue at h
  cases hd : decode c with
  | ok i =>
    rw [hd] at h
    exact .inl ⟨i, rfl, h⟩
  | error e =>
    rw [hd] at h
    cases h
    exact .inr ⟨decode_illegal.1 ⟨e, hd⟩, rfl⟩

/-- Everything a step that answers a next state can be: no action, a command, HWRITE, HREAD, HERR
with and without an unread event, RESET. -/
theorem step_cases (h : step s = .next t) :
    (s.script = [] ∧ t = s) ∨
    (∃ c rest, s.script = .command c :: rest ∧ issue c { s with script := rest } = .next t) ∨
    (∃ addr bytes rest, s.script = .hwrite addr bytes :: rest ∧ s.inRange addr bytes.length ∧
      t = { s.memWrite addr bytes with script := rest, out := .nothing }) ∨
    (∃ addr n rest, s.script = .hread addr n :: rest ∧ s.inRange addr n ∧
      t = { s with script := rest, out := .bytes (s.memRead addr n) }) ∨
    (∃ e rest, s.script = .herr :: rest ∧ s.errlog[s.errRead]? = some e ∧
      t = { s with script := rest, out := .event (some e), errRead := s.errRead + 1 }) ∨
    (∃ rest, s.script = .herr :: rest ∧ s.errlog[s.errRead]? = none ∧
      t = { s with script := rest, out := .event none }) ∨
    (∃ rest, s.script = .reset :: rest ∧ t = { s.resetAction with script := rest }) := by
  unfold step takeNext at h
  split at h
  · cases h
    exact .inl ⟨‹_›, rfl⟩
  rename_i action rest hs
  cases action with
  | command c => exact .inr (.inl ⟨c, rest, hs, h⟩)
  | hwrite addr bytes =>
    simp only [perform, hostWrite] at h
    split at h <;> cases h
    exact .inr (.inr (.inl ⟨addr, bytes, rest, hs, Decidable.not_not.1 ‹_›, rfl⟩))
  | hread addr n =>
    simp only [perform, hostRead] at h
    split at h <;> cases h
    refine .inr (.inr (.inr (.inl ⟨addr, n, rest, hs, Decidable.not_not.1 ‹_›, ?_⟩)))
    have e : State.memRead { s with script := rest } addr n = s.memRead addr n :=
      State.memRead_congr fun _ _ => rfl
    rw [e]
  | herr =>
    simp only [perform, hostErr] at h
    split at h <;> cases h
    · exact .inr (.inr (.inr (.inr (.inl ⟨_, rest, hs, ‹_›, rfl⟩))))
    · exact .inr (.inr (.inr (.inr (.inr (.inl ⟨rest, hs, ‹_›, rfl⟩)))))
  | reset =>
    cases h
    exact .inr (.inr (.inr (.inr (.inr (.inr ⟨rest, hs, rfl⟩)))))

end Sys2Proof.Machine
end

