-- ==== Sys2Proof/Tests/Slice0.lean ====
section
/-!
SUPPORT. Tests of one step each, with the expected results of spec/95_test_vectors.md, and a witness
for the hypotheses of each statement.
-/

set_option maxRecDepth 20000

namespace Sys2Proof.Machine.Tests

/-! ## Helpers -/

/-- The reset state with a `BUF` of `size` bytes in which the given bytes are written. -/
def loaded (size addr : Nat) (bytes : List Byte) : State :=
  { State.reset with
    cfg := { Config.default with bufSize := size }
    buf := Memory.cellsFrom addr bytes }

/-- The same with a host that issues the command word `c` next. -/
def issuing (c : Wide) (s : State) : State := { s with script := [.command c] }

/-- The response a result carries. -/
def response? (r : Result) : Option Response :=
  match r with
  | .next t =>
    match t.out with
    | .response resp => some resp
    | _ => none
  | _ => none

/-- What the host gets. -/
def delivery? (r : Result) : Option Delivery :=
  match r with
  | .next t => some t.out
  | _ => none

/-- The bytes of a range after a result. -/
def bytesAfter (r : Result) (addr n : Nat) : List Byte :=
  match r with
  | .next t => t.memRead addr n
  | _ => []

/-- `SEQ` after a result. -/
def seqAfter (r : Result) : Option Byte :=
  match r with
  | .next t => some t.seq
  | _ => none

/-- `ERRLOG` after a result. -/
def errlogAfter (r : Result) : Option (List ErrEvent) :=
  match r with
  | .next t => some t.errlog
  | _ => none

/-- Whether a result is a next state. -/
def isNext (r : Result) : Bool :=
  match r with
  | .next _ => true
  | _ => false

/-- "123456789" (V-C6). -/
def digits : List Byte := [0x31, 0x32, 0x33, 0x34, 0x35, 0x36, 0x37, 0x38, 0x39]

/-- The eight bytes of the bit-field vectors (section 2.2 of the vectors). -/
def pattern8 : List Byte := [0x12, 0x34, 0x56, 0x78, 0x9A, 0xBC, 0xDE, 0xF0]

/-- The frame of V-F3. -/
def frame3 : List Byte :=
  [0xA5, 0x03, 0x00, 0x00, 0x27, 0x34, 0x12, 0x01, 0x02, 0x03, 0x28, 0x19]

/-- The frame of V-F41, with no data. -/
def frame0 : List Byte := [0xA5, 0x00, 0x00, 0x00, 0xC3, 0x00, 0x00, 0x4C, 0x83]

/-! ## Well-formedness: the ill-formed terms are refused (R68) -/

theorem test_wf_getbits_width_zero : ¬ (Instr.getbits 0 0 0).WellFormed := by decide
theorem test_wf_getbits_width_33 : ¬ (Instr.getbits 0 0 33).WellFormed := by decide
theorem test_wf_setbits_width_zero : ¬ (Instr.setbits 5 0 0 0).WellFormed := by decide
theorem test_wf_setbits_width_63 : ¬ (Instr.setbits 5 0 0 63).WellFormed := by decide
theorem test_wf_fenc_65536 : ¬ (Instr.fenc 0 0 65536 0).WellFormed := by decide

theorem test_wf_boundaries :
    (Instr.getbits 0xFFFFFFFF 0xFFFF 1).WellFormed ∧ (Instr.getbits 0 0 32).WellFormed ∧
    (Instr.setbits 0xFFFFFFFF 0 0 32).WellFormed ∧ (Instr.fenc 0 0 65535 0).WellFormed ∧
    (Instr.fdec 0xFFFFFFFF 0xFFFFFFFF).WellFormed := by decide

/-! ## Decoding: words of the vectors, field by field -/

/-- V-C38: every unused field set. -/
theorem test_decode_crc8 : decode 0xFFFFFFFF0000000400000000FFFFFFF1 = .ok (.crc8 0 4) := by decide
/-- V-C19. -/
theorem test_decode_crc16 : decode 0x00000000000000090000010000000002 = .ok (.crc16 0x100 9) := by
  decide
/-- V-C34. -/
theorem test_decode_vcrc8 : decode 0x00000000000000000003FFFF00000003 = .ok (.vcrc8 0x3FFFF 0) := by
  decide
/-- V-C36. -/
theorem test_decode_vcrc16 : decode 0x00000000000000030000003C00000004 = .ok (.vcrc16 60 3) := by
  decide
/-- V-B12. -/
theorem test_decode_getbits : decode 0x00000000000000000000000300170095 = .ok (.getbits 3 23 9) := by
  decide
/-- V-B26. -/
theorem test_decode_setbits :
    decode 0x00000000FFFFFFFF0000000100070206 = .ok (.setbits 0xFFFFFFFF 1 7 32) := by decide
/-- V-M7. -/
theorem test_decode_getbytes :
    decode 0x00000100000000030000002000000007 = .ok (.getbytes 0x20 3 0x100) := by decide
/-- V-M8. -/
theorem test_decode_setbytes :
    decode 0x00000020000000030000010000000008 = .ok (.setbytes 0x100 3 0x20) := by decide
/-- V-F10. -/
theorem test_decode_fenc :
    decode 0x000000000000FFFF00020000FFFF0009 = .ok (.fenc 0xFFFF 0x20000 65535 0) := by decide
/-- V-F42. -/
theorem test_decode_fdec : decode 0x0000000000010008000000000000000A = .ok (.fdec 0 65544) := by
  decide
/-- Program 4, steps 2 and 3. -/
theorem test_decode_illegal :
    decode 0 = .error (.illegalOp 0) ∧
    decode 0x0000000300000002000000010004005F = .error (.illegalOp 0xF) := by decide
/-- R60 bit by bit: `op` is bits 3:0, `w` 9:4, `rsv` 15:10, `h` 31:16, `a` 63:32, `n` 95:64,
`d` 127:96. -/
theorem test_encode_getbits_bits :
    encode (.getbits 1 1 1) = (1 <<< 32 ||| 1 <<< 16 ||| 1 <<< 4 ||| 5 : Wide) := by decide
theorem test_encode_fenc_bits :
    encode (.fenc 1 1 1 1) = (1 <<< 96 ||| 1 <<< 64 ||| 1 <<< 32 ||| 1 <<< 16 ||| 9 : Wide) := by
  decide

/-! ## The default checksum functions (V-C1, V-C6, V-C15; R103, R104) -/

theorem test_crc8_default :
    crc8Standard [] = 0xFF ∧ crc8Standard digits = 0x0B ∧
    crc8Standard [0xDE, 0xAD, 0xBE, 0xEF] = 0x6F := by decide
theorem test_crc16_default :
    crc16Standard [] = 0xFFFF ∧ crc16Standard digits = 0x6F91 ∧
    crc16Standard [0xDE, 0xAD, 0xBE, 0xEF] = 0x1A34 := by decide

/-! ## One command each -/

/-- V-C17. -/
theorem test_crc8 : response? (issue 0x00000000000000090000000000000001 (loaded 0x40000 0 digits)) =
    some ⟨.ok, 0x0B, 0, 0⟩ := by decide
/-- V-C33: the range check does not wrap. -/
theorem test_crc8_range : response? (issue 0x0000000000000001FFFFFFFF00000001 State.reset) =
    some ⟨.errRange, 0, 0, 0⟩ := by decide
/-- V-C19. -/
theorem test_crc16 :
    response? (issue 0x00000000000000090000010000000002 (loaded 0x40000 0x100 digits)) =
      some ⟨.ok, 0x6F91, 0, 0⟩ := by decide
/-- V-C31: the empty range at the end of `BUF`. -/
theorem test_crc16_empty : response? (issue 0x00000000000000000004000000000002 State.reset) =
    some ⟨.ok, 0xFFFF, 0, 0⟩ := by decide
/-- V-C20. -/
theorem test_vcrc8 :
    response? (issue 0x00000000000000040000001000000003
      (loaded 0x40000 0x10 [0xA5, 0, 0, 0, 0xC3])) = some ⟨.ok, 1, 0, 0⟩ := by decide
/-- V-C21: one bit inverted. -/
theorem test_vcrc8_mismatch :
    response? (issue 0x00000000000000040000001000000003
      (loaded 0x40000 0x10 [0xA5, 1, 0, 0, 0xC3])) = some ⟨.ok, 0, 0, 0⟩ := by decide
/-- V-C22. -/
theorem test_vcrc16 :
    response? (issue 0x00000000000000090000000000000004
      (loaded 0x40000 0 (digits ++ [0x91, 0x6F]))) = some ⟨.ok, 1, 0, 0⟩ := by decide
/-- V-C23: the stored value is little-endian. -/
theorem test_vcrc16_byte_order :
    response? (issue 0x00000000000000090000000000000004
      (loaded 0x40000 0 (digits ++ [0x6F, 0x91]))) = some ⟨.ok, 0, 0, 0⟩ := by decide
/-- V-B10: a field over five bytes. -/
theorem test_getbits :
    response? (issue 0x00000000000000000000000100070205 (loaded 8 0 pattern8)) =
      some ⟨.ok, 0x7934F0AC, 0, 0⟩ := by decide
/-- V-B17, V-B18, V-B19f: the last field in range, one bit further, and the width before the range. -/
theorem test_getbits_corners :
    response? (issue 0x00000000000000000000000400000205 (loaded 8 0 pattern8)) =
      some ⟨.ok, 0xF0DEBC9A, 0, 0⟩ ∧
    response? (issue 0x00000000000000000000000400010205 (loaded 8 0 pattern8)) =
      some ⟨.errRange, 0, 0, 0⟩ ∧
    response? (issue 0x0000000000000000FFFFFFFFFFFF0005 (loaded 8 0 pattern8)) =
      some ⟨.errArg, 0, 0, 0⟩ := by decide
/-- V-B26: the bits around the field are kept. -/
theorem test_setbits :
    bytesAfter (issue 0x00000000FFFFFFFF0000000100070206 (loaded 8 0 pattern8)) 0 8 =
      [0x12, 0xB4, 0xFF, 0xFF, 0xFF, 0xFF, 0xDE, 0xF0] := by decide
/-- V-B27: the value is truncated to the width, across a byte boundary. -/
theorem test_setbits_truncates :
    bytesAfter (issue 0x000000000000ABCD00000000000C0086 (loaded 8 0 pattern8)) 0 8 =
      [0x12, 0xD4, 0x5C, 0x78, 0x9A, 0xBC, 0xDE, 0xF0] := by decide
/-- V-M1: a forward overlap is a snapshot copy. -/
theorem test_getbytes :
    bytesAfter (issue 0x00000002000000040000000000000007 (loaded 8 0 pattern8)) 0 8 =
      [0x12, 0x34, 0x12, 0x34, 0x56, 0x78, 0xDE, 0xF0] := by decide
/-- V-M6: no wrap. -/
theorem test_getbytes_range :
    response? (issue 0x00000000FFFFFFFFFFFFFFFF00000007 State.reset) =
      some ⟨.errRange, 0, 0, 0⟩ := by decide
/-- V-M2: a backward overlap. -/
theorem test_setbytes :
    bytesAfter (issue 0x00000000000000040000000200000008 (loaded 8 0 pattern8)) 0 8 =
      [0x56, 0x78, 0x9A, 0xBC, 0x9A, 0xBC, 0xDE, 0xF0] := by decide
/-- Program 4, step 6. -/
theorem test_setbytes_range :
    response? (issue 0x0000003D000000040000000000000008 (loaded 64 0 pattern8)) =
      some ⟨.errRange, 0, 0, 0⟩ := by decide
/-- V-F9 with `SEQ = 255`, the bytes of V-F5: built over its own data, and `SEQ` wraps (R21). -/
theorem test_fenc :
    let r := issue 0x00000040000000030000004012340009
      { loaded 0x40000 0x40 [1, 2, 3] with seq := 255 }
    bytesAfter r 0x40 12 = [0xA5, 3, 0, 0xFF, 0x12, 0x34, 0x12, 1, 2, 3, 0xDA, 0x44] ∧
    response? r = some ⟨.ok, 12, 0x40, 0x00FF0000⟩ ∧ seqAfter r = some 0 := by decide
/-- V-F6: `SEQ_PREINC` is true. -/
theorem test_fenc_preinc :
    let r := issue 0x00000040000000030000020012340009 { State.reset with
      cfg := { Config.default with seqPreinc := true }
      buf := Memory.cellsFrom 0x200 [1, 2, 3] }
    bytesAfter r 0x40 12 = [0xA5, 3, 0, 1, 0x79, 0x34, 0x12, 1, 2, 3, 0x3E, 0xFF] ∧
    response? r = some ⟨.ok, 12, 0x40, 0x00010000⟩ ∧ seqAfter r = some 1 := by decide
/-- Program 1, step 3. -/
theorem test_fdec :
    response? (issue 0x000000000000000C000000400000000A (loaded 0x40000 0x40 frame3)) =
      some ⟨.ok, 0x1234, 0x47, 3⟩ := by decide
/-- V-F31b and V-F30: the event carries the corrupted sequence byte; a corrupted trailer. -/
theorem test_fdec_rejects :
    errlogAfter (issue 0x000000000000000C000000400000000A
      (loaded 0x40000 0x40 (frame3.set 3 0x7F))) = some [⟨.crc8, 0x7F⟩] ∧
    errlogAfter (issue 0x000000000000000C000000400000000A
      (loaded 0x40000 0x40 (frame3.set 10 0x29))) = some [⟨.crc16, 0⟩] := by decide

/-! ## The response port, the error port and the host -/

/-- Program 3, steps 7, 8 and 11: the words on the ports. -/
theorem test_port_words :
    responseWord ⟨.rejCrc16, 0, 0, 0x00020000⟩ = 0x00020000000000000000000000000003 ∧
    eventWord ⟨.crc16, 2⟩ = 0x0102 ∧ eventWord ⟨.crc8, 7⟩ = 0x0007 := by decide
/-- HERR delivers the oldest unread event (R222). -/
theorem test_herr :
    delivery? (step { State.reset with
      script := [.herr]
      errlog := [⟨.crc16, 2⟩, ⟨.crc8, 7⟩]
      errRead := 1 }) = some (.event (some ⟨.crc8, 7⟩)) := by decide
/-- Program 1, steps 1 and 8: HWRITE and HREAD. -/
theorem test_hwrite :
    bytesAfter (step { State.reset with script := [.hwrite 0x200 [1, 2, 3]] }) 0x200 3 = [1, 2, 3] := by
  decide
theorem test_hread :
    delivery? (step { loaded 0x40000 0x40 frame3 with script := [.hread 0x40 12] }) =
      some (.bytes frame3) := by decide
/-- A write in the middle keeps the memory in canonical form. -/
theorem test_write_canonical :
    (Memory.write [(1, 10), (2, 11), (5, 12)] 2 [7, 8] : Memory) = [(1, 10), (2, 7), (3, 8), (5, 12)] := by
  decide
/-- R240. -/
theorem test_reset_action :
    seqAfter (step { State.reset with script := [.reset], seq := 9, errlog := [⟨.crc8, 7⟩] }) = some 0 ∧
    errlogAfter (step { State.reset with script := [.reset], seq := 9, errlog := [⟨.crc8, 7⟩] }) =
      some [] := by decide
/-- The word that the table's row of FDEC gives runs as the first instruction. -/
theorem test_withFetchWord :
    decodeTableWord 128 0xA = some (.fdec 0 0) ∧
    response? (step (State.reset.withFetchWord 128 0xA)) = some ⟨.rejSof, 0, 0, 0⟩ := by decide

/-! ## Witnesses: for each statement with hypotheses, states and operands that meet them

Each theorem `witness_<Name>` is about `Obligations.<Name>`, clause by clause, at the boundaries. -/

/-- A result with a response is a next state with it. -/
theorem next_of_response {x : Result} {r : Response} (h : response? x = some r) :
    ∃ t, x = .next t ∧ t.out = .response r := by
  unfold response? at h
  split at h
  · split at h <;> cases h
    exact ⟨_, rfl, ‹_›⟩
  · cases h

/-- Agreement on a range, index by index. -/
theorem agreeOn_of {s s' : State} {base len : Nat}
    (h : ∀ k, k < len → s.byteAt (base + k) = s'.byteAt (base + k)) : AgreeOn s s' base len := by
  intro x h1 h2
  have := h (x - base) (by omega)
  rwa [show base + (x - base) = x by omega] at this

theorem witness_EncodeOfDecodeKeepsReadBits :
    decode 0xFFFFFFFF0000000400000000FFFFFFF1 = .ok (.crc8 0 4) := by decide

theorem witness_IllegalOpsAndIgnoredFields :
    ((issuing 0x0 State.reset).script = .command 0x0 :: [] ∧ opField 0x0 = 0x0) ∧
    ((issuing 0xB State.reset).script = .command 0xB :: [] ∧ 0xB ≤ (opField 0xB).toNat) ∧
    ((issuing 0x1 State.reset).script = .command 0x1 :: [] ∧
      1 ≤ (opField 0x1).toNat ∧ (opField 0x1).toNat ≤ 0xA) ∧
    ((issuing 0xA State.reset).script = .command 0xA :: [] ∧
      1 ≤ (opField 0xA).toNat ∧ (opField 0xA).toNat ≤ 0xA) ∧
    (0xFFFFFFFF0000000400000000FFFFFFF1 &&& formatMask (opField 0xFFFFFFFF0000000400000000FFFFFFF1) =
      0x00000000000000040000000000000001 &&&
        formatMask (opField 0xFFFFFFFF0000000400000000FFFFFFF1)) := by decide

theorem witness_StepRunsTheDecodedInstruction :
    (issuing 0x00000000000000090000000000000001 State.reset).script =
      .command 0x00000000000000090000000000000001 :: [] ∧
    decode 0x00000000000000090000000000000001 = .ok (.crc8 0 9) := by decide

theorem witness_ResponseOfEveryCommand :
    response? (issue 0x0 State.reset) = some ⟨.errOp, 0, 0, 0⟩ ∧
    response? (issue 0x5 State.reset) = some ⟨.errArg, 0, 0, 0⟩ ∧
    response? (issue 0x00000000000000010004000000000001 State.reset) = some ⟨.errRange, 0, 0, 0⟩ ∧
    response? (issue 0xA State.reset) = some ⟨.rejSof, 0, 0, 0⟩ ∧
    response? (issue 0x0000000000000004000000000000000A (loaded 64 0 frame3)) =
      some ⟨.rejTrunc, 0, 0, 0⟩ ∧
    response? (issue 0x000000000000000C000000000000000A (loaded 64 0 (frame3.set 3 0x7F))) =
      some ⟨.rejCrc8, 0, 0, 0x007F0000⟩ ∧
    response? (issue 0x000000000000000C000000000000000A (loaded 64 0 (frame3.set 10 0x29))) =
      some ⟨.rejCrc16, 0, 0, 0⟩ ∧
    (response? (issue 0x00000000000000000000000000000085 (loaded 8 0 pattern8)) =
      some ⟨.ok, 0x12, 0, 0⟩ ∧ (opField 0x85).toNat ≤ 5) ∧
    (response? (issue 0x00000000000000050000000000000086 (loaded 8 0 pattern8)) =
      some ⟨.ok, 0, 0, 0⟩ ∧ 6 ≤ (opField 0x86).toNat) ∧
    (response? (issue 0x8 State.reset) = some ⟨.ok, 0, 0, 0⟩ ∧ (opField 0x8).toNat ≤ 8) := by decide

theorem witness_BufAccessPrimitives :
    ([7, 8] : List Byte)[1]? = some 8 ∧
    (0x1F < 0x20 ∨ 0x20 + ([7, 8] : List Byte).length ≤ 0x1F) ∧
    (0x22 < 0x20 ∨ 0x20 + ([7, 8] : List Byte).length ≤ 0x22) := by decide

theorem witness_Crc8Result :
    opField 0x1 = 0x1 ∧ State.reset.cfg.bufSize < (0x40000#32).toNat + (1#32).toNat ∧
    (0x40000#32).toNat + (0#32).toNat ≤ State.reset.cfg.bufSize := by decide

theorem witness_Crc16Result :
    opField 0x2 = 0x2 ∧ State.reset.cfg.bufSize < (0xFFFFFFFF#32).toNat + (1#32).toNat ∧
    (0#32).toNat + (0x40000#32).toNat ≤ State.reset.cfg.bufSize := by decide

theorem witness_Vcrc8Result :
    opField 0x3 = 0x3 ∧ State.reset.cfg.bufSize < (0x40000#32).toNat + (0#32).toNat + 1 ∧
    (0x3FFFF#32).toNat + (0#32).toNat + 1 ≤ State.reset.cfg.bufSize := by decide

theorem witness_Vcrc16Result :
    opField 0x4 = 0x4 ∧ (loaded 64 0 []).cfg.bufSize < (60#32).toNat + (3#32).toNat + 2 ∧
    (60#32).toNat + (2#32).toNat + 2 ≤ (loaded 64 0 []).cfg.bufSize := by decide

theorem witness_ChecksumsDependOnlyOnTheBytes :
    let s := loaded 64 0 digits
    let s' := { loaded 64 0x20 digits with seq := 7 }
    (∃ t, exec (.vcrc16 0 7) s = .next t) ∧ (∃ t, exec (.vcrc16 0x20 7) s' = .next t) ∧
    (∃ t, exec (.crc8 0 9) s = .next t) ∧ (∃ t, exec (.crc8 0x20 9) s' = .next t) ∧
    (∃ t, exec (.crc16 0 9) s = .next t) ∧ (∃ t, exec (.crc16 0x20 9) s' = .next t) ∧
    (∃ t, exec (.vcrc8 0 8) s = .next t) ∧ (∃ t, exec (.vcrc8 0x20 8) s' = .next t) ∧
    s.cfg = s'.cfg ∧ (0#32).toNat + (9#32).toNat ≤ s.cfg.bufSize ∧
    (0x20#32).toNat + (9#32).toNat ≤ s.cfg.bufSize ∧
    ∀ k, k < 9 → s.byteAt (0 + k) = s'.byteAt (0x20 + k) :=
  ⟨exec_next _ _, exec_next _ _, exec_next _ _, exec_next _ _, exec_next _ _, exec_next _ _,
    exec_next _ _, exec_next _ _, by decide⟩

theorem witness_VerifyRoundTrip :
    (let s := loaded 0x40000 0x10 [0xA5, 0, 0, 0, 0xC3]
     ConfigValid s.cfg ∧ (0x10#32).toNat + (4#32).toNat + 1 ≤ s.cfg.bufSize ∧
     s.byteAt (0x10 + 4) = c8 s.cfg (s.memRead 0x10 4) ∧ 4 < (4#32).toNat + 1) ∧
    (let s := loaded 0x40000 0x3FFFF [0xFF]
     ConfigValid s.cfg ∧ (0x3FFFF#32).toNat + (0#32).toNat + 1 ≤ s.cfg.bufSize ∧
     s.byteAt (0x3FFFF + 0) = c8 s.cfg (s.memRead 0x3FFFF 0) ∧ 0 < (0#32).toNat + 1) ∧
    (let s := loaded 0x40000 0 (digits ++ [0x91, 0x6F])
     ConfigValid s.cfg ∧ (0#32).toNat + (9#32).toNat + 2 ≤ s.cfg.bufSize ∧
     s.byteAt (0 + 9) = lo8 (c16 s.cfg (s.memRead 0 9)) ∧
     s.byteAt (0 + 9 + 1) = hi8 (c16 s.cfg (s.memRead 0 9)) ∧ 10 < (9#32).toNat + 2) :=
  ⟨⟨default_valid, by decide⟩, ⟨default_valid, by decide⟩, ⟨default_valid, by decide⟩⟩

theorem witness_GetbitsResult :
    opField 0x5 = 0x5 ∧ (0#6).toNat = 0 ∧ 32 < (33#6).toNat ∧
    (1 ≤ (32#6).toNat ∧ (32#6).toNat ≤ 32 ∧
      (loaded 8 0 []).cfg.bufSize ≤ (8 * (4#32).toNat + (1#16).toNat + (32#6).toNat - 1) / 8) ∧
    (1 ≤ (1#6).toNat ∧ (1#6).toNat ≤ 32 ∧
      (8 * (0#32).toNat + (63#16).toNat + (1#6).toNat - 1) / 8 < (loaded 8 0 []).cfg.bufSize) := by
  decide

theorem witness_SetbitsResult :
    opField 0x6 = 0x6 ∧ (0#6).toNat = 0 ∧ 32 < (63#6).toNat ∧
    (1 ≤ (2#6).toNat ∧ (2#6).toNat ≤ 32 ∧
      (loaded 8 0 []).cfg.bufSize ≤ (8 * (7#32).toNat + (7#16).toNat + (2#6).toNat - 1) / 8) ∧
    (1 ≤ (32#6).toNat ∧ (32#6).toNat ≤ 32 ∧
      (8 * (4#32).toNat + (0#16).toNat + (32#6).toNat - 1) / 8 < (loaded 8 0 []).cfg.bufSize) := by
  decide

theorem witness_SetThenGetRoundTrip :
    (legalWidth 32 ∧ lastByte (bitPos 4 0) (32#6).toNat < (loaded 8 0 []).cfg.bufSize ∧
      (0xFFFFFFFF#32).toNat < 2 ^ (32#6).toNat) ∧
    (let f : FieldWrite := ⟨0x1F, 0, 6, 4⟩
     let g : FieldWrite := ⟨1, 0, 10, 1⟩
     legalWidth f.w ∧ legalWidth g.w ∧
     lastByte (bitPos f.a f.h) f.w.toNat < (loaded 2 0 []).cfg.bufSize ∧
     lastByte (bitPos g.a g.h) g.w.toNat < (loaded 2 0 []).cfg.bufSize ∧ f.Disjoint g) := by decide

/-- The twelve fields of the descriptor of Program 2 at address 0 (R176). -/
def descriptor : List FieldWrite :=
  [⟨1, 3, 0, 3⟩, ⟨2, 3, 3, 3⟩, ⟨3, 3, 6, 4⟩, ⟨2, 3, 10, 4⟩, ⟨90, 3, 14, 9⟩, ⟨180, 3, 23, 9⟩,
   ⟨100, 7, 0, 10⟩, ⟨50, 7, 10, 11⟩, ⟨200, 7, 21, 11⟩,
   ⟨40, 11, 0, 10⟩, ⟨10, 11, 10, 11⟩, ⟨300, 11, 21, 11⟩]

theorem witness_PackedFieldsReadBack :
    (∀ f ∈ descriptor, legalWidth f.w ∧
      lastByte (bitPos f.a f.h) f.w.toNat < (loaded 15 0 []).cfg.bufSize) ∧
    descriptor.Pairwise FieldWrite.Disjoint ∧
    (∀ f ∈ descriptor, 23 < f.bits.1 ∨ f.bits.2 ≤ 23) := by decide

theorem witness_GetbitsIsAPureRead :
    let s := loaded 8 0 pattern8
    let s' := { loaded 8 0 (pattern8.set 2 0) with seq := 7 }
    (∃ t, exec (.getbits 0 4 12) s = .next t) ∧ (∃ t, exec (.getbits 0 4 12) s' = .next t) ∧
    8 * (0#32).toNat + (31#16).toNat = 8 * (3#32).toNat + (7#16).toNat ∧ s.cfg = s'.cfg ∧
    (∀ x, firstByte (bitPos 0 4) ≤ x → x ≤ lastByte (bitPos 0 4) (12#6).toNat →
      s.byteAt x = s'.byteAt x) := by
  refine ⟨exec_next _ _, exec_next _ _, by decide, by decide, fun x h1 h2 => ?_⟩
  have h3 : x < 2 := Nat.lt_of_le_of_lt h2 (by decide)
  revert x
  decide

theorem witness_CopiesAreSnapshots :
    opField 0x7 = 0x7 ∧ opField 0x8 = 0x8 ∧
    State.reset.cfg.bufSize < (0x3FFFF#32).toNat + (2#32).toNat ∧
    State.reset.cfg.bufSize < (0x40000#32).toNat + (1#32).toNat ∧
    (0#32).toNat + (0#32).toNat ≤ State.reset.cfg.bufSize ∧
    (0x40000#32).toNat + (0#32).toNat ≤ State.reset.cfg.bufSize ∧
    (0x3FFFC#32).toNat + (4#32).toNat ≤ State.reset.cfg.bufSize := by decide

theorem witness_ByteAndBitFormsAgree :
    (7#32).toNat < (loaded 8 0 []).cfg.bufSize ∧ (0#32).toNat ≤ 4 ∧
    (8#32).toNat + (0#32).toNat ≤ (loaded 8 0 []).cfg.bufSize ∧ (4#32).toNat ≤ 4 ∧ (4#32).toNat + (4#32).toNat ≤ (loaded 8 0 []).cfg.bufSize ∧
    (2#32).toNat + (4#32).toNat ≤ (loaded 8 0 []).cfg.bufSize := by decide

theorem witness_FencResult :
    opField 0x9 = 0x9 ∧ 65535 < (65536#32).toNat ∧
    ((3#32).toNat ≤ 65535 ∧ State.reset.cfg.bufSize < (0x3FFF5#32).toNat + 9 + (3#32).toNat) ∧
    ((3#32).toNat ≤ 65535 ∧ State.reset.cfg.bufSize < (0x3FFFE#32).toNat + (3#32).toNat) ∧
    ((3#32).toNat ≤ 65535 ∧ (0x3FFFD#32).toNat + (3#32).toNat ≤ State.reset.cfg.bufSize ∧
      (0x3FFF4#32).toNat + 9 + (3#32).toNat ≤ State.reset.cfg.bufSize) ∧
    ((65535#32).toNat ≤ 65535 ∧ (0x20000#32).toNat + (65535#32).toNat ≤ State.reset.cfg.bufSize ∧
      (0#32).toNat + 9 + (65535#32).toNat ≤ State.reset.cfg.bufSize) := by decide

theorem witness_FrameLayout :
    (65535#32).toNat ≤ 65535 ∧ (0x20000#32).toNat + (65535#32).toNat ≤ State.reset.cfg.bufSize ∧
    (0#32).toNat + 9 + (65535#32).toNat ≤ State.reset.cfg.bufSize := by decide

theorem witness_FdecResult :
    opField 0xA = 0xA ∧
    State.reset.cfg.bufSize < 0x3FFFF + 2 ∧
    (0x40000 + 0 ≤ State.reset.cfg.bufSize ∧ 0 < 1) ∧
    (let s := loaded 12 0 (frame3.set 0 0x5A)
     0 + 12 ≤ s.cfg.bufSize ∧ s.byteAt 0 ≠ 0xA5) ∧
    (let s := loaded 12 0 frame3
     0 + 4 ≤ s.cfg.bufSize ∧ 1 ≤ 4 ∧ s.byteAt 0 = 0xA5 ∧ 4 < 5) ∧
    (let s := loaded 5 0 (frame3.set 4 0x26)
     0 + 5 ≤ s.cfg.bufSize ∧ s.byteAt 0 = 0xA5 ∧ 5 ≤ 5 ∧
     ¬ c8 s.cfg (s.memRead 0 4) = s.byteAt (0 + 4)) ∧
    (let s := loaded 12 0 frame3
     0 + 11 ≤ s.cfg.bufSize ∧ s.byteAt 0 = 0xA5 ∧ 5 ≤ 11 ∧
     c8 s.cfg (s.memRead 0 4) = s.byteAt (0 + 4) ∧
     11 < 9 + ((s.byteAt (0 + 1)).toNat + 256 * (s.byteAt (0 + 2)).toNat)) ∧
    (let s := loaded 12 0 (frame3.set 10 0x29)
     0 + 12 ≤ s.cfg.bufSize ∧ s.byteAt 0 = 0xA5 ∧ c8 s.cfg (s.memRead 0 4) = s.byteAt (0 + 4) ∧
     9 + ((s.byteAt (0 + 1)).toNat + 256 * (s.byteAt (0 + 2)).toNat) ≤ 12 ∧
     ¬ (c16 s.cfg (s.memRead 0 (7 + 3))).toNat =
       (s.byteAt (0 + 7 + 3)).toNat + 256 * (s.byteAt (0 + 8 + 3)).toNat) ∧
    (let s := loaded 12 0 frame3
     0 + 12 ≤ s.cfg.bufSize ∧ s.byteAt 0 = 0xA5 ∧ c8 s.cfg (s.memRead 0 4) = s.byteAt (0 + 4) ∧
     9 + ((s.byteAt (0 + 1)).toNat + 256 * (s.byteAt (0 + 2)).toNat) ≤ 12 ∧
     (c16 s.cfg (s.memRead 0 (7 + 3))).toNat =
       (s.byteAt (0 + 7 + 3)).toNat + 256 * (s.byteAt (0 + 8 + 3)).toNat) := by decide

theorem witness_FdecAcceptsExactly :
    (0#32).toNat + (12#32).toNat ≤ (loaded 12 0 frame3).cfg.bufSize ∧
    statusOf (exec (.fdec 0 12) (loaded 12 0 frame3)) = some .ok := by decide

theorem witness_FdecReadsNoFurtherThanItTrusts :
    (let s := loaded 12 0 frame3
     let s' := loaded 12 0 [0xA5, 1, 2]
     s.cfg = s'.cfg ∧ (0#32).toNat + (4#32).toNat ≤ s.cfg.bufSize ∧
     (∃ t, exec (.fdec 0 4) s = .next t) ∧ (∃ t, exec (.fdec 0 4) s' = .next t) ∧
     (4#32).toNat < 5 ∧ (0#32).toNat < 5 ∧ s'.byteAt 0 = s.byteAt 0) ∧
    (let s := loaded 12 0 (frame3.set 0 0x5A)
     let s' := loaded 12 0 [0x5A, 1, 2]
     s.cfg = s'.cfg ∧ (0#32).toNat + (12#32).toNat ≤ s.cfg.bufSize ∧
     (∃ t, exec (.fdec 0 12) s = .next t) ∧ (∃ t, exec (.fdec 0 12) s' = .next t) ∧
     s.byteAt 0 ≠ 0xA5 ∧ s'.byteAt 0 = s.byteAt 0) ∧
    (let s := loaded 12 0 (frame3.set 4 0x26)
     let s' := loaded 12 0 [0xA5, 0x03, 0x00, 0x00, 0x26, 9]
     s.cfg = s'.cfg ∧ (∃ t, exec (.fdec 0 5) s = .next t) ∧ (∃ t, exec (.fdec 0 5) s' = .next t) ∧
     5 ≤ (5#32).toNat ∧ c8 s.cfg (s.memRead 0 4) ≠ s.byteAt (0 + 4) ∧ AgreeOn s s' 0 5) ∧
    (let s := loaded 12 0 frame3
     let s' := loaded 12 0 [0xA5, 0x03, 0x00, 0x00, 0x27, 9]
     s.cfg = s'.cfg ∧ (∃ t, exec (.fdec 0 11) s = .next t) ∧
     (∃ t, exec (.fdec 0 11) s' = .next t) ∧ 5 ≤ (5#32).toNat ∧ 5 ≤ (11#32).toNat ∧
     c8 s.cfg (s.memRead 0 4) = s.byteAt (0 + 4) ∧
     (11#32).toNat < 9 + ((s.byteAt (0 + 1)).toNat + 256 * (s.byteAt (0 + 2)).toNat) ∧
     AgreeOn s s' 0 5) ∧
    (let s := loaded 16 0 frame3
     let s' := loaded 16 0 (frame3 ++ [9])
     s.cfg = s'.cfg ∧ (∃ t, exec (.fdec 0 12) s = .next t) ∧
     (∃ t, exec (.fdec 0 16) s' = .next t) ∧ c8 s.cfg (s.memRead 0 4) = s.byteAt (0 + 4) ∧
     9 + 3 ≤ (12#32).toNat ∧ 9 + 3 ≤ (16#32).toNat ∧ 0 + (16#32).toNat ≤ s.cfg.bufSize ∧
     AgreeOn s s' 0 (9 + 3)) :=
  ⟨⟨by decide, by decide, exec_next _ _, exec_next _ _, by decide, by decide, by decide⟩,
   ⟨by decide, by decide, exec_next _ _, exec_next _ _, by decide, by decide⟩,
   ⟨by decide, exec_next _ _, exec_next _ _, by decide, by decide, agreeOn_of (by decide)⟩,
   ⟨by decide, exec_next _ _, exec_next _ _, by decide, by decide, by decide, by decide,
     agreeOn_of (by decide)⟩,
   ⟨by decide, exec_next _ _, exec_next _ _, by decide, by decide, by decide, by decide,
     agreeOn_of (by decide)⟩⟩

theorem witness_FrameRoundTrip :
    ((65535#32).toNat ≤ 65535 ∧ (0x20000#32).toNat + (65535#32).toNat ≤ State.reset.cfg.bufSize ∧
      9 + (65535#32).toNat ≤ (65544#32).toNat ∧
      (0#32).toNat + (65544#32).toNat ≤ State.reset.cfg.bufSize) ∧
    ∃ t u, exec (.fenc 0x1234 0x200 3 0x40) (loaded 0x40000 0x200 [1, 2, 3]) = .next t ∧
      exec (.fenc 0x1234 0x200 3 0x60) t = .next u ∧ statusOf (.next u) = some .ok :=
  ⟨by decide, _, _, rfl, rfl, rfl⟩

theorem witness_OneChangedByteIsRejected :
    let s := loaded 0x40000 0x40 frame0
    ConfigValid s.cfg ∧ statusOf (exec (.fdec 0x40 9) s) = some .ok ∧
    (9#32).toNat = 9 + ((s.byteAt (0x40 + 1)).toNat + 256 * (s.byteAt (0x40 + 2)).toNat) ∧
    (0 < (9#32).toNat ∧ 0 ≠ s.byteAt (0x40 + 0)) ∧ (4 < (9#32).toNat ∧ 0 ≠ s.byteAt (0x40 + 4)) ∧
    (5 < (9#32).toNat ∧ 1 ≠ s.byteAt (0x40 + 5)) ∧ (8 < (9#32).toNat ∧ 0 ≠ s.byteAt (0x40 + 8)) :=
  ⟨default_valid, by decide⟩

theorem witness_OnlyFencTouchesSeq :
    (∃ t, exec (.fenc 0x1234 0x200 3 0x40) (loaded 0x40000 0x200 [1, 2, 3]) = .next t ∧
      statusOf (.next t) = some .ok) ∧
    ({ State.reset with script := [.hread 0 0] }.script = .hread 0 0 :: [] ∧
      (∀ c, HostAction.hread 0 0 ≠ .command c) ∧
      ∃ t, step { State.reset with script := [.hread 0 0] } = .next t) ∧
    ((∀ h a n d, Instr.fdec 0 0 ≠ .fenc h a n d) ∧ ∃ t, exec (.fdec 0 0) State.reset = .next t) :=
  ⟨⟨_, rfl, rfl⟩, ⟨rfl, nofun, _, rfl⟩, ⟨nofun, exec_next _ _⟩⟩

theorem witness_SeqCountsBuiltFrames :
    let s := { loaded 0x40000 0x200 [1, 2, 3] with
      seq := 255
      script := [.command (encode (.fenc 0x1234 0x200 3 0x40)), .herr, .reset] }
    (∃ t, Host.Core.run core 2 s = .next t ∧ t.seq = 0) ∧ .reset ∉ s.script.take 2 :=
  ⟨⟨_, rfl, rfl⟩, by decide⟩

theorem witness_IllegalFieldValues :
    (0#6).toNat = 0 ∧ 32 < (33#6).toNat ∧ 65535 < (65536#32).toNat ∧
    (Instr.fenc 0 0 65535 0).WellFormed ∧ (Instr.setbits 0 0 0 32).WellFormed := by decide

theorem witness_RangeCheckFirst :
    ((Instr.setbits 3 7 7 2).WellFormed ∧ ¬ FitsBuf (.setbits 3 7 7 2) (loaded 8 0 [])) ∧
    (Instr.getbytes 0 4 5).WellFormed ∧ ¬ FitsBuf (.getbytes 0 4 5) (loaded 8 0 []) ∧
    FitsBuf (.getbytes 0 4 4) (loaded 8 0 []) := by
  refine ⟨⟨by decide, fun h => absurd h.1 (by decide)⟩, by decide, fun h => ?_, by decide, ?_⟩
  · exact absurd (h.2 _ rfl) (by decide)
  · rintro r ⟨⟩
    decide

theorem witness_PriorityOfChecks :
    (∀ i, decode 0x0 ≠ .ok i) ∧
    (decode 0x0000000000000000FFFFFFFFFFFF0005 = .ok (.getbits 0xFFFFFFFF 0xFFFF 0) ∧
      ¬ (Instr.getbits 0xFFFFFFFF 0xFFFF 0).WellFormed) ∧
    (decode 0x00000000000000010004000000000001 = .ok (.crc8 0x40000 1) ∧
      (Instr.crc8 0x40000 1).WellFormed ∧ ¬ FitsBuf (.crc8 0x40000 1) State.reset) ∧
    (decode 0x00000000000000000004000000000001 = .ok (.crc8 0x40000 0) ∧
      (Instr.crc8 0x40000 0).WellFormed ∧ FitsBuf (.crc8 0x40000 0) State.reset ∧
      ∀ a n, Instr.crc8 0x40000 0 ≠ .fdec a n) ∧
    (decode 0x0000000000000000000400000000000A = .ok (.fdec 0x40000 0) ∧
      FitsBuf (.fdec 0x40000 0) State.reset) := by
  refine ⟨fun i h => ?_, by decide, ⟨by decide, by decide, fun h => absurd h.1 (by decide)⟩,
    ⟨by decide, by decide, ⟨by decide, nofun⟩, nofun⟩, by decide, by decide, nofun⟩
  have h0 : decode 0x0 = .error (.illegalOp 0) := by decide
  rw [h0] at h
  cases h

theorem witness_NonOkChangesNothing :
    (∃ t, issue 0x0 State.reset = .next t ∧ t.out = .response ⟨.errOp, 0, 0, 0⟩) ∧
    (∃ t, issue 0x000000000000000C000000000000000A (loaded 64 0 (frame3.set 3 0x7F)) = .next t ∧
      t.out = .response ⟨.rejCrc8, 0, 0, 0x007F0000⟩) ∧
    (∃ t, issue 0x000000000000000C000000000000000A (loaded 64 0 (frame3.set 10 0x29)) = .next t ∧
      t.out = .response ⟨.rejCrc16, 0, 0, 0⟩) :=
  ⟨next_of_response (by decide), next_of_response (by decide), next_of_response (by decide)⟩

theorem witness_ErrlogIsAppendOnly :
    let s := issuing 0x000000000000000C000000000000000A (loaded 64 0 (frame3.set 3 0x7F))
    (∃ t, step s = .next t ∧ t.out = .response ⟨.rejCrc8, 0, 0, 0x007F0000⟩) ∧
    s.script.head? ≠ some .reset :=
  ⟨next_of_response (by decide), by decide⟩

theorem witness_EveryCommandCompletes :
    (issuing 0xF State.reset).script = .command 0xF :: [] := by decide

theorem witness_ReadOnlyOperations :
    ({ State.reset with script := [.hread 0 0] }.script = .hread 0 0 :: [] ∧
      ∃ t, step { State.reset with script := [.hread 0 0] } = .next t) ∧
    (writeRange (.getbits 0 0 8) = none ∧ (∀ a n, Instr.getbits 0 0 8 ≠ .fdec a n) ∧
      ∃ t, exec (.getbits 0 0 8) (loaded 8 0 pattern8) = .next t) ∧
    (∃ t, exec (.fdec 0 12) (loaded 64 0 (frame3.set 3 0x7F)) = .next t ∧
      t.out = .response ⟨.rejCrc8, 0, 0, 0x007F0000⟩) ∧
    (∃ t, exec (.fdec 0 12) (loaded 64 0 (frame3.set 10 0x29)) = .next t ∧
      t.out = .response ⟨.rejCrc16, 0, 0, 0⟩) ∧
    ∃ t, exec (.fdec 0 12) (loaded 64 0 frame3) = .next t ∧
      t.out = .response ⟨.ok, 0x1234, 7, 3⟩ :=
  ⟨⟨rfl, _, rfl⟩, ⟨rfl, nofun, exec_next _ _⟩, next_of_response (by decide),
    next_of_response (by decide), next_of_response (by decide)⟩

theorem witness_FrameOfEveryInstruction :
    (∃ t, exec (.getbytes 0 4 2) (loaded 8 0 pattern8) = .next t) ∧
    (∀ r, writeRange (.getbytes 0 4 2) = some r → 1 < r.1 ∨ r.1 + r.2 ≤ 1) ∧
    (∀ r, writeRange (.getbytes 0 4 2) = some r → 6 < r.1 ∨ r.1 + r.2 ≤ 6) ∧
    (∀ h a n d, Instr.getbytes 0 4 2 ≠ .fenc h a n d) ∧
    (∀ a n, Instr.getbytes 0 4 2 ≠ .fdec a n) ∧
    (∃ t, exec (.getbytes 0 4 5) (loaded 8 0 pattern8) = .next t ∧
      t.out = .response ⟨.errRange, 0, 0, 0⟩) ∧ isInterfaceError .errRange = true := by
  refine ⟨exec_next _ _, ?_, ?_, nofun, nofun, next_of_response (by decide), rfl⟩ <;>
  · rintro r ⟨⟩
    decide

theorem witness_InstructionsReadOnlyTheirRange :
    let i : Instr := .fenc 0x1234 0x200 3 0x40
    let s := loaded 0x40000 0x200 [1, 2, 3]
    let s' := loaded 0x40000 0x200 [1, 2, 3, 4]
    s.cfg = s'.cfg ∧ AgreeOn s s' (readRange i).1 (readRange i).2 ∧ s.seq = s'.seq ∧
    writeRange i = some (0x40, 12) ∧ statusOf (exec i s) = some .ok :=
  ⟨rfl, agreeOn_of (by decide), rfl, rfl, rfl⟩

theorem witness_HostActionsDoWhatTheySay :
    ({ State.reset with script := [.hwrite 0x3FFFD [1, 2, 3]] }.script =
      .hwrite 0x3FFFD [1, 2, 3] :: [] ∧
      0x3FFFD + ([1, 2, 3] : List Byte).length ≤ State.reset.cfg.bufSize ∧
      State.reset.cfg.bufSize < 0x3FFFE + ([1, 2, 3] : List Byte).length) ∧
    ({ State.reset with script := [.hread 0x40000 0] }.script = .hread 0x40000 0 :: [] ∧
      0x40000 + 0 ≤ State.reset.cfg.bufSize ∧ State.reset.cfg.bufSize < 0x40000 + 1) ∧
    (let s := { State.reset with script := [.herr], errlog := [⟨.crc8, 7⟩] }
     s.script = .herr :: [] ∧ (s.errlog.drop s.errRead).head? = some ⟨.crc8, 7⟩) ∧
    (issuing 0x1 State.reset).script = .command 0x1 :: [] ∧
    { State.reset with script := [.reset] }.script = .reset :: [] := by decide

theorem witness_ResetAction :
    let s := { State.reset with script := [.reset], seq := 9 }
    let s' := { loaded 8 0 pattern8 with script := [.reset] }
    s.script = .reset :: [] ∧ s'.script = .reset :: [] ∧ s'.epoch = s.epoch ∧
    ∃ t, step s' = .next t := by
  exact ⟨rfl, rfl, rfl, _, rfl⟩

theorem witness_ConfigurationIsFixed :
    ∃ t, step { loaded 8 0 pattern8 with script := [.reset] } = .next t := ⟨_, rfl⟩

theorem witness_EveryStepKeepsInvariant :
    let s := { loaded 8 0 pattern8 with script := [.herr], errlog := [⟨.crc8, 7⟩] }
    s.Inv ∧ ∃ t, step s = .next t :=
  ⟨⟨by decide, by decide, by decide, nofun⟩, _, rfl⟩

end Sys2Proof.Machine.Tests
end

section
/-!
PROOFS. The primitives on `BUF` (R15, R43) and the power-on state (R34, R240).
-/

namespace Sys2Proof.Machine

/-- `MemRead` in address order (R15), as a list over the addresses read. -/
theorem State.memRead_eq_map_range' (s : State) (addr n : Nat) :
    s.memRead addr n = (List.range' addr n).map s.byteAt := by
  induction n generalizing addr with
  | zero => rfl
  | succ n ih => rw [State.memRead, ih, List.range'_succ, List.map_cons]

/-- Inside its range a `MemWrite` leaves the byte it was given (R15). -/
theorem State.byteAt_memWrite_inside (s : State) (addr : Nat) {bytes : List Byte} {i : Nat}
    {b : Byte} (hb : bytes[i]? = some b) : (s.memWrite addr bytes).byteAt (addr + i) = b := by
  obtain ⟨hi, -⟩ := List.getElem?_eq_some_iff.1 hb
  rw [State.byteAt_memWrite, if_pos (by omega), Nat.add_sub_cancel_left, List.getD, hb,
    Option.getD_some]

/-- The frame of a `MemWrite`: outside its range nothing changes (R15). -/
theorem State.byteAt_memWrite_outside (s : State) {addr : Nat} {bytes : List Byte} {x : Nat}
    (hx : x < addr ∨ addr + bytes.length ≤ x) : (s.memWrite addr bytes).byteAt x = s.byteAt x := by
  rw [State.byteAt_memWrite, if_neg (by omega)]

/-- `bit(P)` as a number, by shifting its byte right and masking (R43). -/
theorem State.toNat_bitAt (s : State) (P : Nat) :
    (s.bitAt P).toNat = (s.byteAt (P / 8)).toNat >>> (P % 8) &&& 1 := by
  rw [State.bitAt, BitVec.getLsbD, Nat.toNat_testBit, Nat.shiftRight_eq_div_pow, Nat.and_one_is_mod]

/-- With nothing written, every address reads its free value (R23). -/
theorem State.byteAt_of_buf_nil {s : State} (hs : s.buf = []) (x : Nat) :
    s.byteAt x = Config.initByte s.epoch x := by
  rw [State.byteAt, hs, Memory.read?]

/-- Settles O8, primitive by primitive: the list read, the range written, the frame of the write, and
the bit. -/
theorem bufAccessPrimitives : Obligations.BufAccessPrimitives :=
  ⟨State.memRead_eq_map_range', fun s addr _ _ _ => s.byteAt_memWrite_inside addr,
    fun s _ _ _ => s.byteAt_memWrite_outside, State.toNat_bitAt⟩

/-- Settles O48: the fields are those of `State.reset`, whose memory lists no written byte. -/
theorem powerOnState : Obligations.PowerOnState :=
  ⟨rfl, rfl, rfl, State.byteAt_of_buf_nil rfl, rfl, rfl, rfl⟩

end Sys2Proof.Machine
end

section
/-!
PROOFS. The effect of a command: a value computed from the read columns of R35 alone, which acts on the
state by one of four updates. Every statement about what an instruction changes, keeps or depends on
is read off the effect.
-/

namespace Sys2Proof.Machine

variable {i : Instr} {s s' t : State}

/-- What a command does to the state, with the values it does it with. -/
inductive Effect where
  /-- Respond, and change nothing else. -/
  | answer (r : Response)
  /-- Log a checksum rejection of a frame with sequence number `q`, and respond with it. -/
  | reject (kind : EventKind) (status : Status) (q : Byte)
  /-- Write bytes and respond `OK`. -/
  | write (addr : Nat) (bytes : List Byte)
  /-- Write a frame, advance `SEQ` and respond `OK`. -/
  | build (addr : Nat) (bytes : List Byte) (v0 v1 v2 : Word)

/-- The state after an effect. -/
def Effect.apply (s : State) : Effect → State
  | .answer r => s.done r.status r.r0 r.r1 r.r2
  | .reject kind status q => (s.emit kind q).done status 0 0 (seqWord q)
  | .write addr bytes => (s.memWrite addr bytes).done .ok 0 0 0
  | .build addr bytes v0 v1 v2 => (s.memWrite addr bytes).bumpSeq.done .ok v0 v1 v2

/-- Which effects an instruction can have in a state: the write columns of R35, the range check of
R46 and the results of R64. -/
def Effect.Permitted (i : Instr) (s : State) : Effect → Prop
  | .answer r => r.Lawful ∧ (r.status = .ok → writeRange i = none)
  | .reject kind status q =>
    eventKindOf status = some kind ∧ ∃ a n, i = .fdec a n ∧ q = s.byteAt (a.toNat + 3)
  | .write addr bytes =>
    (∀ h a n d, i ≠ .fenc h a n d) ∧ writeRange i = some (addr, bytes.length) ∧
      s.inRange addr bytes.length
  | .build addr bytes _ _ _ =>
    (∃ h a n d, i = .fenc h a n d) ∧ writeRange i = some (addr, bytes.length) ∧
      s.inRange addr bytes.length

/-- The events an effect appends to `ERRLOG`. -/
def Effect.events : Effect → List ErrEvent
  | .answer _ => []
  | .reject kind _ q => [⟨kind, q⟩]
  | .write _ _ => []
  | .build _ _ _ _ _ => []

theorem Effect.apply_errlog (e : Effect) (s : State) :
    (e.apply s).errlog = s.errlog ++ e.events := by
  cases e <;> simp [Effect.apply, Effect.events]

theorem Effect.apply_out (e : Effect) (s s' : State) : (e.apply s).out = (e.apply s').out := by
  cases e <;> rfl

/-- Only the two checksum rejections have an event (R204). -/
theorem eventKindOf_eq_some {status : Status} {kind : EventKind} :
    eventKindOf status = some kind ↔
      kind = .crc8 ∧ status = .rejCrc8 ∨ kind = .crc16 ∧ status = .rejCrc16 := by
  cases status <;> cases kind <;> decide

@[simp] theorem statusOf_next_done (s : State) (status : Status) (v0 v1 v2 : Word) :
    statusOf (.next (s.done status v0 v1 v2)) = some status := rfl

/-! ## The read columns of R35 -/

/-- Two states that an instruction cannot tell apart by what R35 says it reads. -/
structure SameReads (i : Instr) (s s' : State) : Prop where
  cfg : s.cfg = s'.cfg
  bytes : AgreeOn s s' (readRange i).1 (readRange i).2
  seq : (∃ h a n d, i = .fenc h a n d) → s.seq = s'.seq

theorem SameReads.refl (i : Instr) (s : State) : SameReads i s s :=
  ⟨rfl, fun _ _ _ => rfl, fun _ => rfl⟩

theorem SameReads.inRange (h : SameReads i s s') {base len : Nat} :
    s'.inRange base len ↔ s.inRange base len := by
  simp only [State.inRange, h.cfg]

/-- The range check of two ranges (R46). -/
theorem SameReads.outOfRange (h : SameReads i s s') {base len base' len' : Nat} :
    (¬ s'.inRange base len ∨ ¬ s'.inRange base' len') ↔
      (¬ s.inRange base len ∨ ¬ s.inRange base' len') :=
  or_congr (not_congr h.inRange) (not_congr h.inRange)

theorem AgreeOn.byteAt {base len x : Nat} (h : AgreeOn s s' base len) (hlo : base ≤ x)
    (hhi : x < base + len) : s'.byteAt x = s.byteAt x :=
  (h x hlo hhi).symm

theorem AgreeOn.memRead_le {base len k : Nat} (h : AgreeOn s s' base len) (hk : k ≤ len) :
    s'.memRead base k = s.memRead base k :=
  State.memRead_congr fun _ _ => h.byteAt (by omega) (by omega)

/-- The whole read range reads the same. -/
theorem SameReads.memRead (h : SameReads i s s') :
    s'.memRead (readRange i).1 (readRange i).2 = s.memRead (readRange i).1 (readRange i).2 :=
  h.bytes.memRead_le le_rfl

/-- A field is read from the bytes it touches alone (R121, R122). -/
theorem AgreeOn.fieldValue {P w : Nat} (h : AgreeOn s s' (firstByte P) (touched P w))
    (hw : 1 ≤ w) : s'.fieldValue P w = s.fieldValue P w := by
  have hf := field_in_touched (P := P) hw
  refine State.fieldValue_congr fun j hj => ?_
  rw [State.bitAt, State.bitAt, h _ (by omega) (by omega)]

/-- The bytes of a field after a write depend on the bytes it touches alone (R124). -/
theorem AgreeOn.fieldBytes {P w : Nat} (h : AgreeOn s s' (firstByte P) (touched P w)) (v : Nat) :
    s'.fieldBytes P w v = s.fieldBytes P w v := by
  rw [State.fieldBytes, State.fieldBytes, h.memRead_le le_rfl]

/-! ## The effect of each instruction -/

/-- An instruction has one permitted effect in all the states it cannot tell from `s`. -/
def HasEffect (i : Instr) (s : State) : Prop :=
  ∃ e : Effect, e.Permitted i s ∧ ∀ s', SameReads i s s' → exec i s' = .next (e.apply s')

theorem Response.lawful_of_isInterfaceError {status : Status} (h : isInterfaceError status = true) :
    Response.Lawful ⟨status, 0, 0, 0⟩ := by
  cases status <;> simp_all [isInterfaceError, Response.Lawful]

/-- A command that is refused whole (R202) has the effect of its response. -/
theorem hasEffect_of_raise (status : Status) (hst : isInterfaceError status = true)
    (h : ∀ s', SameReads i s s' → exec i s' = .next (s'.raise status)) : HasEffect i s :=
  ⟨.answer ⟨status, 0, 0, 0⟩, ⟨Response.lawful_of_isInterfaceError hst, by rintro rfl; cases hst⟩, h⟩

/-- A command that ends `OK` and writes nothing has the effect of its response. -/
theorem hasEffect_of_ok (v0 v1 v2 : Word) (hw : writeRange i = none)
    (h : ∀ s', SameReads i s s' → exec i s' = .next (s'.done .ok v0 v1 v2)) : HasEffect i s :=
  ⟨.answer ⟨.ok, v0, v1, v2⟩, ⟨trivial, fun _ => hw⟩, h⟩

theorem crc8_hasEffect (a n : Word) (s : State) : HasEffect (.crc8 a n) s := by
  by_cases hr : s.inRange a.toNat n.toNat
  · refine hasEffect_of_ok ((c8 s.cfg (s.memRead a.toNat n.toNat)).setWidth 32) 0 0 rfl
      fun s' h => ?_
    have hdata : s'.memRead a.toNat n.toNat = s.memRead a.toNat n.toNat := h.memRead
    rw [exec, execCrc8, if_neg (not_not.2 (h.inRange.2 hr)), hdata, h.cfg]
  · exact hasEffect_of_raise .errRange rfl fun s' h => if_pos (mt h.inRange.1 hr)

theorem crc16_hasEffect (a n : Word) (s : State) : HasEffect (.crc16 a n) s := by
  by_cases hr : s.inRange a.toNat n.toNat
  · refine hasEffect_of_ok ((c16 s.cfg (s.memRead a.toNat n.toNat)).setWidth 32) 0 0 rfl
      fun s' h => ?_
    have hdata : s'.memRead a.toNat n.toNat = s.memRead a.toNat n.toNat := h.memRead
    rw [exec, execCrc16, if_neg (not_not.2 (h.inRange.2 hr)), hdata, h.cfg]
  · exact hasEffect_of_raise .errRange rfl fun s' h => if_pos (mt h.inRange.1 hr)

theorem vcrc8_hasEffect (a n : Word) (s : State) : HasEffect (.vcrc8 a n) s := by
  by_cases hr : s.inRange a.toNat (n.toNat + 1)
  · refine hasEffect_of_ok (matchWord (c8 s.cfg (s.memRead a.toNat n.toNat)
      == s.byteAt (a.toNat + n.toNat))) 0 0 rfl fun s' h => ?_
    have hb : AgreeOn s s' a.toNat (n.toNat + 1) := h.bytes
    rw [exec, execVcrc8, if_neg (not_not.2 (h.inRange.2 hr)), hb.memRead_le (by omega),
      hb.byteAt (by omega) (by omega), h.cfg]
  · exact hasEffect_of_raise .errRange rfl fun s' h => if_pos (mt h.inRange.1 hr)

theorem vcrc16_hasEffect (a n : Word) (s : State) : HasEffect (.vcrc16 a n) s := by
  by_cases hr : s.inRange a.toNat (n.toNat + 2)
  · refine hasEffect_of_ok (matchWord (c16 s.cfg (s.memRead a.toNat n.toNat)
      == le16 (s.byteAt (a.toNat + n.toNat)) (s.byteAt (a.toNat + n.toNat + 1)))) 0 0 rfl
      fun s' h => ?_
    have hb : AgreeOn s s' a.toNat (n.toNat + 2) := h.bytes
    rw [exec, execVcrc16, if_neg (not_not.2 (h.inRange.2 hr)), hb.memRead_le (by omega),
      hb.byteAt (by omega) (by omega), hb.byteAt (by omega) (by omega), h.cfg]
  · exact hasEffect_of_raise .errRange rfl fun s' h => if_pos (mt h.inRange.1 hr)

theorem getbits_hasEffect (a : Word) (h : Half) (w : Width) (s : State) :
    HasEffect (.getbits a h w) s := by
  by_cases hw : legalWidth w
  · by_cases hr : s.cfg.bufSize ≤ lastByte (bitPos a h) w.toNat
    · exact hasEffect_of_raise .errRange rfl fun s' g => by
        rw [exec, execGetbits, if_neg (not_not.2 hw), if_pos (g.cfg ▸ hr)]
    · refine hasEffect_of_ok (BitVec.ofNat 32 (s.fieldValue (bitPos a h) w.toNat)) 0 0 rfl
        fun s' g => ?_
      rw [exec, execGetbits, if_neg (not_not.2 hw), if_neg (g.cfg ▸ hr), g.bytes.fieldValue hw.1]
  · exact hasEffect_of_raise .errArg rfl fun s' _ => if_pos hw

theorem setbits_hasEffect (v a : Word) (h : Half) (w : Width) (s : State) :
    HasEffect (.setbits v a h w) s := by
  by_cases hw : legalWidth w
  · by_cases hr : s.cfg.bufSize ≤ lastByte (bitPos a h) w.toNat
    · exact hasEffect_of_raise .errRange rfl fun s' g => by
        rw [exec, execSetbits, if_neg (not_not.2 hw), if_pos (g.cfg ▸ hr)]
    · have hlen := length_fieldBytes s (bitPos a h) w.toNat v.toNat
      have hlast := firstByte_add_touched (P := bitPos a h) hw.1
      refine ⟨.write (firstByte (bitPos a h)) (s.fieldBytes (bitPos a h) w.toNat v.toNat),
        ⟨nofun, by rw [hlen]; rfl, by rw [hlen, State.inRange]; omega⟩, fun s' g => ?_⟩
      rw [exec, execSetbits, if_neg (not_not.2 hw), if_neg (g.cfg ▸ hr),
        g.bytes.fieldBytes v.toNat, Effect.apply]
  · exact hasEffect_of_raise .errArg rfl fun s' _ => if_pos hw

/-- GETBYTES and SETBYTES are the same copy (R128, R129). -/
theorem hasEffect_of_copyBytes {a n d : Word} (hf : ∀ h a n d, i ≠ .fenc h a n d)
    (hi : ∀ s, exec i s = copyBytes a n d s) (hread : readRange i = (a.toNat, n.toNat))
    (hwrite : writeRange i = some (d.toNat, n.toNat)) (s : State) : HasEffect i s := by
  by_cases hr : ¬ s.inRange a.toNat n.toNat ∨ ¬ s.inRange d.toNat n.toNat
  · exact hasEffect_of_raise .errRange rfl fun s' h => by
      rw [hi, copyBytes, if_pos (h.outOfRange.2 hr)]
  · have hd : s.inRange d.toNat n.toNat := not_not.1 (not_or.1 hr).2
    refine ⟨.write d.toNat (s.memRead a.toNat n.toNat), ⟨hf, by simpa using hwrite,
      by simpa using hd⟩, fun s' h => ?_⟩
    have hdata := h.memRead
    rw [hread] at hdata
    rw [hi, copyBytes, if_neg (mt h.outOfRange.1 hr), hdata, Effect.apply]

theorem fenc_hasEffect (h : Half) (a n d : Word) (s : State) : HasEffect (.fenc h a n d) s := by
  by_cases hn : legalLength n
  · by_cases hr : ¬ s.inRange a.toNat n.toNat ∨ ¬ s.inRange d.toNat (9 + n.toNat)
    · exact hasEffect_of_raise .errRange rfl fun s' g => by
        rw [exec, execFenc, if_neg (not_not.2 hn), if_pos (g.outOfRange.2 hr)]
    · have hd : s.inRange d.toNat (9 + n.toNat) := not_not.1 (not_or.1 hr).2
      refine ⟨.build d.toNat (frameBytes s.cfg h (n.setWidth 16) (seqUsed s)
        (s.memRead a.toNat n.toNat)) (9 + n) d (seqWord (seqUsed s)),
        ⟨⟨h, a, n, d, rfl⟩, by simp [writeRange], by simpa using hd⟩, fun s' g => ?_⟩
      have hdata : s'.memRead a.toNat n.toNat = s.memRead a.toNat n.toNat := g.memRead
      have hq : seqUsed s' = seqUsed s := by
        rw [seqUsed, seqUsed, g.cfg, g.seq ⟨h, a, n, d, rfl⟩]
      rw [exec, execFenc, if_neg (not_not.2 hn), if_neg (mt g.outOfRange.1 hr), hdata, hq, g.cfg,
        Effect.apply]
  · exact hasEffect_of_raise .errArg rfl fun s' _ => if_pos hn

/-- The test of the start byte (R147) looks at a byte of the read range, if there is one. -/
theorem SameReads.fdec_sof {a n : Word} (h : SameReads (.fdec a n) s s') :
    (n.toNat < 1 ∨ s'.byteAt a.toNat ≠ sof) ↔ (n.toNat < 1 ∨ s.byteAt a.toNat ≠ sof) := by
  have hb : AgreeOn s s' a.toNat n.toNat := h.bytes
  refine or_congr_right' fun hn => ?_
  rw [hb.byteAt le_rfl (by omega)]

/-- FDEC past the tests of the start byte and of the header's length: what it does in `s'` is decided
by the bytes of `s` (R147, R205), each read lying below a length tested before it. -/
theorem exec_fdec_of_header {a n : Word} (h : SameReads (.fdec a n) s s')
    (hr : s.inRange a.toNat n.toNat) (hsof : s.byteAt a.toNat = sof) (h5 : 5 ≤ n.toNat) :
    exec (.fdec a n) s' =
      if c8 s.cfg (s.memRead a.toNat 4) ≠ s.byteAt (a.toNat + 4) then
        .next ((s'.emit .crc8 (s.byteAt (a.toNat + 3))).done .rejCrc8 0 0
          (seqWord (s.byteAt (a.toNat + 3))))
      else if n.toNat < 9 + declaredLength s a.toNat then .next (s'.done .rejTrunc 0 0 0)
      else if c16 s.cfg (s.memRead a.toNat (7 + declaredLength s a.toNat)) ≠
          le16 (s.byteAt (a.toNat + 7 + declaredLength s a.toNat))
            (s.byteAt (a.toNat + 8 + declaredLength s a.toNat)) then
        .next ((s'.emit .crc16 (s.byteAt (a.toNat + 3))).done .rejCrc16 0 0
          (seqWord (s.byteAt (a.toNat + 3))))
      else .next (s'.done .ok ((le16 (s.byteAt (a.toNat + 5)) (s.byteAt (a.toNat + 6))).setWidth 32)
        (a + 7) ((le16 (s.byteAt (a.toNat + 1)) (s.byteAt (a.toNat + 2))).setWidth 32
          + seqWord (s.byteAt (a.toNat + 3)))) := by
  have hb : AgreeOn s s' a.toNat n.toNat := h.bytes
  have hstart : ¬ (n.toNat < 1 ∨ s.byteAt a.toNat ≠ sof) :=
    not_or.2 ⟨by omega, not_not.2 hsof⟩
  simp only [exec, execFdec]
  rw [if_neg (not_not.2 (h.inRange.2 hr)), if_neg (mt h.fdec_sof.1 hstart), if_neg (by omega), ← h.cfg,
    hb.memRead_le (by omega), hb.byteAt (x := a.toNat + 1) (by omega) (by omega),
    hb.byteAt (x := a.toNat + 2) (by omega) (by omega),
    hb.byteAt (x := a.toNat + 3) (by omega) (by omega),
    hb.byteAt (x := a.toNat + 4) (by omega) (by omega)]
  have hlength : (le16 (s.byteAt (a.toNat + 1)) (s.byteAt (a.toNat + 2))).toNat =
    declaredLength s a.toNat := rfl
  simp only [hlength]
  by_cases hL : n.toNat < 9 + declaredLength s a.toNat
  · rw [if_pos hL, if_pos hL]
  · rw [if_neg hL, if_neg hL, hb.memRead_le (by omega),
      hb.byteAt (x := a.toNat + 5) (by omega) (by omega),
      hb.byteAt (x := a.toNat + 6) (by omega) (by omega), hb.byteAt (by omega) (by omega),
      hb.byteAt (by omega) (by omega)]

theorem fdec_hasEffect (a n : Word) (s : State) : HasEffect (.fdec a n) s := by
  obtain ⟨t, ht⟩ := exec_next (.fdec a n) s
  rcases execFdec_cases ht with ⟨hr, -⟩ | ⟨hr, hsof, -⟩ | ⟨hr, h1, hsof, h5, -⟩ |
    ⟨hr, hsof, h5, h8, -⟩ | ⟨hr, hsof, h5, h8, hL, -⟩ | ⟨hr, hsof, h8, hL, h16, -⟩ |
    ⟨hr, hsof, h8, hL, h16, -⟩
  · exact hasEffect_of_raise .errRange rfl fun s' h => if_pos (mt h.inRange.1 hr)
  · refine ⟨.answer ⟨.rejSof, 0, 0, 0⟩, ⟨⟨rfl, rfl, rfl⟩, nofun⟩, fun s' h => ?_⟩
    exact (if_neg (not_not.2 (h.inRange.2 hr))).trans (if_pos (h.fdec_sof.2 hsof))
  · refine ⟨.answer ⟨.rejTrunc, 0, 0, 0⟩, ⟨⟨rfl, rfl, rfl⟩, nofun⟩, fun s' h => ?_⟩
    have hstart : ¬ (n.toNat < 1 ∨ s.byteAt a.toNat ≠ sof) :=
      not_or.2 ⟨by omega, not_not.2 hsof⟩
    exact (if_neg (not_not.2 (h.inRange.2 hr))).trans
      ((if_neg (mt h.fdec_sof.1 hstart)).trans (if_pos h5))
  · refine ⟨.reject .crc8 .rejCrc8 (s.byteAt (a.toNat + 3)), ⟨rfl, a, n, rfl, rfl⟩, fun s' h => ?_⟩
    rw [exec_fdec_of_header h hr hsof h5, if_pos h8, Effect.apply]
  · refine ⟨.answer ⟨.rejTrunc, 0, 0, 0⟩, ⟨⟨rfl, rfl, rfl⟩, nofun⟩, fun s' h => ?_⟩
    rw [exec_fdec_of_header h hr hsof h5, if_neg (not_not.2 h8), if_pos hL, Effect.apply]
  · refine ⟨.reject .crc16 .rejCrc16 (s.byteAt (a.toNat + 3)), ⟨rfl, a, n, rfl, rfl⟩, fun s' h => ?_⟩
    rw [exec_fdec_of_header h hr hsof (by omega), if_neg (not_not.2 h8), if_neg (by omega),
      if_pos h16, Effect.apply]
  · refine hasEffect_of_ok ((le16 (s.byteAt (a.toNat + 5)) (s.byteAt (a.toNat + 6))).setWidth 32)
      (a + 7) ((le16 (s.byteAt (a.toNat + 1)) (s.byteAt (a.toNat + 2))).setWidth 32
        + seqWord (s.byteAt (a.toNat + 3))) rfl fun s' h => ?_
    rw [exec_fdec_of_header h hr hsof (by omega), if_neg (not_not.2 h8), if_neg (by omega),
      if_neg (not_not.2 h16)]

/-- Every instruction acts by one effect, the same in all states it cannot tell apart. -/
theorem exec_hasEffect (i : Instr) (s : State) : HasEffect i s := by
  cases i with
  | crc8 a n => exact crc8_hasEffect a n s
  | crc16 a n => exact crc16_hasEffect a n s
  | vcrc8 a n => exact vcrc8_hasEffect a n s
  | vcrc16 a n => exact vcrc16_hasEffect a n s
  | getbits a h w => exact getbits_hasEffect a h w s
  | setbits v a h w => exact setbits_hasEffect v a h w s
  | getbytes a n d =>
    exact hasEffect_of_copyBytes (i := .getbytes a n d) nofun (fun _ => rfl) rfl rfl s
  | setbytes a n d =>
    exact hasEffect_of_copyBytes (i := .setbytes a n d) nofun (fun _ => rfl) rfl rfl s
  | fenc h a n d => exact fenc_hasEffect h a n d s
  | fdec a n => exact fdec_hasEffect a n s

/-- Inversion of `exec`: the next state is that of a permitted effect. -/
theorem exec_effect (h : exec i s = .next t) : ∃ e : Effect, e.Permitted i s ∧ t = e.apply s := by
  obtain ⟨e, hp, he⟩ := exec_hasEffect i s
  rw [he s (.refl i s)] at h
  cases h
  exact ⟨e, hp, rfl⟩

/-! ## Frame and noninterference of the instructions -/

/-- The frame of an effect in `BUF`. -/
theorem Effect.Permitted.byteAt_outside {e : Effect} (hp : e.Permitted i s) {x : Nat}
    (hx : ∀ r, writeRange i = some r → x < r.1 ∨ r.1 + r.2 ≤ x) :
    (e.apply s).byteAt x = s.byteAt x := by
  cases e with
  | answer r => rfl
  | reject kind status q => rfl
  | write addr bytes =>
    obtain ⟨-, hw, -⟩ := hp
    exact s.byteAt_memWrite_outside (hx _ hw)
  | build addr bytes v0 v1 v2 =>
    obtain ⟨-, hw, -⟩ := hp
    exact s.byteAt_memWrite_outside (hx _ hw)

/-- An effect advances `SEQ` exactly when it is that of a FENC that ends `OK` (R143). -/
theorem Effect.Permitted.seq {e : Effect} (hp : e.Permitted i s) :
    (e.apply s).seq = if (∃ h a n d, i = .fenc h a n d) ∧ statusOf (.next (e.apply s)) = some .ok
      then s.seq + 1 else s.seq := by
  cases e with
  | answer r =>
    rw [if_neg]
    · rfl
    · rintro ⟨⟨h, a, n, d, rfl⟩, hok⟩
      cases hp.2 (Option.some.inj hok)
  | reject kind status q =>
    obtain ⟨-, a, n, rfl, -⟩ := hp
    rw [if_neg (by simp)]
    rfl
  | write addr bytes =>
    rw [if_neg fun ⟨⟨h, a, n, d, hi⟩, _⟩ => hp.1 h a n d hi]
    rfl
  | build addr bytes v0 v1 v2 =>
    rw [if_pos ⟨hp.1, rfl⟩]
    rfl

/-- Only FDEC emits (R204). -/
theorem Effect.Permitted.errlog {e : Effect} (hp : e.Permitted i s) (hi : ∀ a n, i ≠ .fdec a n) :
    (e.apply s).errlog = s.errlog := by
  cases e with
  | reject kind status q =>
    obtain ⟨-, a, n, h, -⟩ := hp
    exact absurd h (hi a n)
  | answer r => rfl
  | write addr bytes => rfl
  | build addr bytes v0 v1 v2 => rfl

/-- An interface error is the response alone (R202). -/
theorem Effect.Permitted.eq_of_isInterfaceError {e : Effect} (hp : e.Permitted i s) {status : Status}
    (hs : statusOf (.next (e.apply s)) = some status) (he : isInterfaceError status = true) :
    e.apply s = { s with out := (e.apply s).out } := by
  cases e with
  | answer r => rfl
  | reject kind status' q =>
    obtain rfl := Option.some.inj hs
    rcases eventKindOf_eq_some.1 hp.1 with ⟨-, rfl⟩ | ⟨-, rfl⟩ <;> cases he
  | write addr bytes =>
    obtain rfl := Option.some.inj hs
    cases he
  | build addr bytes v0 v1 v2 =>
    obtain rfl := Option.some.inj hs
    cases he

/-- Two states hold the same bytes where the same bytes were just written. -/
theorem agreeOn_memWrite (s s' : State) (addr : Nat) (bytes : List Byte) :
    AgreeOn (s.memWrite addr bytes) (s'.memWrite addr bytes) addr bytes.length := fun x hlo hhi => by
  rw [State.byteAt_memWrite, State.byteAt_memWrite, if_pos ⟨hlo, hhi⟩, if_pos ⟨hlo, hhi⟩]

/-- After an effect that ends `OK` the written range holds the same bytes whatever state it began
in. -/
theorem Effect.Permitted.agreeOn {e : Effect} (hp : e.Permitted i s) (s' : State) {r : Nat × Nat}
    (hr : writeRange i = some r) (hok : statusOf (.next (e.apply s)) = some .ok) :
    AgreeOn (e.apply s) (e.apply s') r.1 r.2 := by
  cases e with
  | answer r' => cases hr.symm.trans (hp.2 (Option.some.inj hok))
  | reject kind status q =>
    obtain ⟨-, a, n, rfl, -⟩ := hp
    cases hr
  | write addr bytes =>
    obtain rfl := Option.some.inj (hr.symm.trans hp.2.1)
    exact agreeOn_memWrite s s' addr bytes
  | build addr bytes v0 v1 v2 =>
    obtain rfl := Option.some.inj (hr.symm.trans hp.2.1)
    exact agreeOn_memWrite s s' addr bytes

/-- Settles O41: each clause is a clause about the effect of the instruction. -/
theorem frameOfEveryInstruction : Obligations.FrameOfEveryInstruction := by
  intro i s t ht
  obtain ⟨hscript, hread, hcfg, hepoch⟩ := exec_keeps ht
  obtain ⟨e, hp, rfl⟩ := exec_effect ht
  refine ⟨fun x => hp.byteAt_outside, fun hi => ?_, hp.errlog, hread, hscript, hepoch, hcfg,
    fun status => hp.eq_of_isInterfaceError⟩
  rw [hp.seq, if_neg fun ⟨⟨h, a, n, d, he⟩, _⟩ => hi h a n d he]

/-- Settles O42: both runs have the effect of the first state, which fixes the response, the events
and the bytes written. -/
theorem instructionsReadOnlyTheirRange : Obligations.InstructionsReadOnlyTheirRange := by
  intro i s s' hcfg hbytes hseq
  obtain ⟨e, hp, he⟩ := exec_hasEffect i s
  exact ⟨_, _, e.events, he s (.refl i s), he s' ⟨hcfg, hbytes, hseq⟩, e.apply_out s s',
    e.apply_errlog s, e.apply_errlog s', fun r => hp.agreeOn s'⟩

/-! ## The invariant -/

/-- A checksum rejection carries a sequence number in `r2` alone (R64). -/
theorem Response.lawful_of_eventKindOf {status : Status} {kind : EventKind}
    (h : eventKindOf status = some kind) (q : Byte) : Response.Lawful ⟨status, 0, 0, seqWord q⟩ := by
  rcases eventKindOf_eq_some.1 h with ⟨-, rfl⟩ | ⟨-, rfl⟩ <;> exact ⟨rfl, rfl, q, rfl⟩

/-- A permitted effect keeps the invariant: what it writes lies in `BUF`, what it answers is lawful. -/
theorem Effect.Permitted.inv {e : Effect} (hp : e.Permitted i s) (h : s.Inv) : (e.apply s).Inv := by
  cases e with
  | answer r => exact h.done hp.1
  | reject kind status q => exact (h.emit kind q).done (Response.lawful_of_eventKindOf hp.1 q)
  | write addr bytes =>
    obtain ⟨-, -, hr⟩ := hp
    exact (h.memWrite hr).done trivial
  | build addr bytes v0 v1 v2 =>
    obtain ⟨-, -, hr⟩ := hp
    exact (h.memWrite hr).bumpSeq.done trivial

theorem exec_inv (h : s.Inv) (ht : exec i s = .next t) : t.Inv := by
  obtain ⟨e, hp, rfl⟩ := exec_effect ht
  exact hp.inv h

theorem issue_inv {c : Wide} (h : s.Inv) (ht : issue c s = .next t) : t.Inv := by
  rcases issue_cases ht with ⟨i, -, hi⟩ | ⟨-, rfl⟩
  · exact exec_inv h hi
  · exact h.done ⟨rfl, rfl, rfl⟩

/-- The invariant does not look at the host's script. -/
theorem State.Inv.withScript (h : s.Inv) (rest : List HostAction) :
    State.Inv { s with script := rest } :=
  ⟨h.buf_wf, h.buf_below, h.errRead_le, h.out_lawful⟩

/-- The invariant allows any delivery that is no response. -/
theorem State.Inv.withOut (h : s.Inv) {out : Delivery} (ho : ∀ r, out ≠ .response r) :
    State.Inv { s with out := out } :=
  ⟨h.buf_wf, h.buf_below, h.errRead_le, fun r hr => absurd hr (ho r)⟩

/-- After a RESET nothing is written, logged, read or delivered (R240). -/
theorem State.resetAction_inv (s : State) : s.resetAction.Inv :=
  ⟨.nil, nofun, le_rfl, nofun⟩

/-- Settles O46: nothing is written, logged, read or delivered. -/
theorem resetMeetsInvariant : Obligations.ResetMeetsInvariant :=
  ⟨.nil, nofun, le_rfl, nofun⟩

/-- Settles O47, action by action: a command by its effect, HWRITE by the write in range, HERR with
an event because that event is one more to read. -/
theorem everyStepKeepsInvariant : Obligations.EveryStepKeepsInvariant := by
  intro s t h ht
  rcases step_cases ht with ⟨-, rfl⟩ | ⟨c, rest, -, hc⟩ | ⟨addr, bytes, rest, -, hr, rfl⟩ |
    ⟨addr, n, rest, -, -, rfl⟩ | ⟨e, rest, -, he, rfl⟩ | ⟨rest, -, -, rfl⟩ | ⟨rest, -, rfl⟩
  · exact h
  · exact issue_inv (h.withScript rest) hc
  · exact ((h.memWrite hr).withScript rest).withOut nofun
  · exact (h.withScript rest).withOut nofun
  · obtain ⟨hlt, -⟩ := List.getElem?_eq_some_iff.1 he
    exact ⟨h.buf_wf, h.buf_below, hlt, nofun⟩
  · exact (h.withScript rest).withOut nofun
  · exact s.resetAction_inv.withScript rest

/-! ## Steps -/

theorem step_command {c : Wide} {rest : List HostAction} (hs : s.script = .command c :: rest) :
    step s = issue c { s with script := rest } := by
  rw [step, takeNext, hs]
  rfl

theorem issue_of_decode {c : Wide} (hd : decode c = .ok i) : issue c s = exec i s := by
  rw [issue, hd]

/-- Settles O5. -/
theorem stepRunsTheDecodedInstruction : Obligations.StepRunsTheDecodedInstruction := by
  intro s c rest i hs hd
  rw [step_command hs, issue_of_decode hd]

/-- A command word leaves the rest of the script and the configuration alone. -/
theorem issue_keeps {c : Wide} (h : issue c s = .next t) : t.script = s.script ∧ t.cfg = s.cfg := by
  rcases issue_cases h with ⟨i, -, hi⟩ | ⟨-, rfl⟩
  · obtain ⟨hscript, -, hcfg, -⟩ := exec_keeps hi
    exact ⟨hscript, hcfg⟩
  · exact ⟨rfl, rfl⟩

/-- A step takes one action off the script and keeps the configuration. -/
theorem step_keeps (h : step s = .next t) : t.script = s.script.tail ∧ t.cfg = s.cfg := by
  rcases step_cases h with ⟨hs, rfl⟩ | ⟨c, rest, hs, hc⟩ | ⟨addr, bytes, rest, hs, -, rfl⟩ |
    ⟨addr, n, rest, hs, -, rfl⟩ | ⟨e, rest, hs, -, rfl⟩ | ⟨rest, hs, -, rfl⟩ | ⟨rest, hs, rfl⟩
  case inr.inl => simpa [hs] using issue_keeps hc
  all_goals simp [hs]

/-- Settles O45. -/
theorem configurationIsFixed : Obligations.ConfigurationIsFixed :=
  fun _ _ h => (step_keeps h).2

/-! ## `SEQ` -/

/-- An instruction advances `SEQ` exactly when it is a FENC that ends `OK` (R20, R143). -/
theorem exec_seq (h : exec i s = .next t) :
    t.seq = if (∃ h a n d, i = .fenc h a n d) ∧ statusOf (.next t) = some .ok
      then s.seq + 1 else s.seq := by
  obtain ⟨e, hp, rfl⟩ := exec_effect h
  exact hp.seq

/-- An instruction other than FENC does the same whatever `SEQ` holds (R20). -/
theorem exec_withSeq (hi : ∀ h a n d, i ≠ .fenc h a n d) (h : exec i s = .next t) (q : Byte) :
    exec i { s with seq := q } = .next { t with seq := q } := by
  obtain ⟨e, hp, he⟩ := exec_hasEffect i s
  rw [he s (.refl i s)] at h
  obtain rfl := Host.Outcome.next.inj h
  rw [he { s with seq := q } ⟨rfl, fun _ _ _ => rfl, fun ⟨h, a, n, d, hf⟩ => absurd hf (hi h a n d)⟩]
  cases e with
  | build addr bytes v0 v1 v2 =>
    obtain ⟨⟨h, a, n, d, hf⟩, -⟩ := hp
    exact absurd hf (hi h a n d)
  | answer r => rfl
  | reject kind status q' => rfl
  | write addr bytes => rfl

/-- Of the host actions that are no command, RESET alone touches `SEQ` (R20, R222, R240). -/
theorem step_seq_of_not_command {action : HostAction} {rest : List HostAction}
    (hs : s.script = action :: rest) (ha : ∀ c, action ≠ .command c) (h : step s = .next t) :
    t.seq = if action = .reset then 0 else s.seq := by
  rcases step_cases h with ⟨hs', -⟩ | ⟨c, _, hs', -⟩ | ⟨addr, bytes, _, hs', -, rfl⟩ |
    ⟨addr, n, _, hs', -, rfl⟩ | ⟨e, _, hs', -, rfl⟩ | ⟨_, hs', -, rfl⟩ | ⟨_, hs', rfl⟩ <;>
    cases hs.symm.trans hs'
  case inr.inl => exact absurd rfl (ha c)
  all_goals rfl

/-- Settles O31. -/
theorem onlyFencTouchesSeq : Obligations.OnlyFencTouchesSeq :=
  ⟨fun _ _ _ => exec_seq, fun _ _ _ _ => step_seq_of_not_command,
    fun _ _ _ q hi h => exec_withSeq hi h q⟩

/-- When a command builds a frame (R145). -/
theorem builtFrame_command {c : Wide} {rest : List HostAction} (hs : s.script = .command c :: rest) :
    builtFrame s = true ↔
      (∃ h a n d, decode c = .ok (.fenc h a n d)) ∧ statusOf (step s) = some .ok := by
  simp only [builtFrame, hs]
  split
  · next h a n d hd => simp [hd]
  · next hd => exact iff_of_false (by simp) fun ⟨⟨h, a, n, d, hf⟩, _⟩ => hd h a n d hf

theorem builtFrame_of_not_command (h : ∀ c, s.script.head? ≠ some (.command c)) :
    builtFrame s = false := by
  unfold builtFrame
  split
  · next c rest hs => exact absurd (by rw [hs]; rfl) (h c)
  · rfl

theorem issue_seq {c : Wide} (h : issue c s = .next t) :
    t.seq = if (∃ h a n d, decode c = .ok (.fenc h a n d)) ∧ statusOf (.next t) = some .ok
      then s.seq + 1 else s.seq := by
  rcases issue_cases h with ⟨i, hd, hi⟩ | ⟨-, rfl⟩
  · simpa [hd] using exec_seq hi
  · rw [if_neg fun ⟨_, hok⟩ => by cases hok]
    rfl

/-- A step that is no RESET advances `SEQ` exactly when it builds a frame (R20, R145). -/
theorem step_seq (h : step s = .next t) (hreset : s.script.head? ≠ some .reset) :
    t.seq = if builtFrame s then s.seq + 1 else s.seq := by
  cases hs : s.script with
  | nil =>
    rw [builtFrame_of_not_command (by simp [hs])]
    rcases step_cases h with ⟨-, rfl⟩ | h
    · rfl
    · simp [hs] at h
  | cons action rest =>
    by_cases hc : ∃ c, action = .command c
    · obtain ⟨c, rfl⟩ := hc
      simp only [builtFrame_command hs, h]
      exact issue_seq (s := { s with script := rest }) ((step_command hs).symm.trans h)
    · have hne : ∀ c, action ≠ .command c := fun c hac => hc ⟨c, hac⟩
      rw [builtFrame_of_not_command (by simpa [hs] using hne), step_seq_of_not_command hs hne h,
        if_neg (by simpa [hs] using hreset)]
      rfl

/-- A run of `k + 1` steps is a step and a run of `k` steps. -/
theorem run_succ {k : Nat} (h : Host.Core.run core (k + 1) s = .next t) :
    ∃ u, step s = .next u ∧ Host.Core.run core k u = .next t := by
  simp only [Host.Core.run] at h
  split at h
  · next u hu => exact ⟨u, hu, h⟩
  · cases h
  · cases h

theorem framesBuilt_succ {u : State} (h : step s = .next u) (k : Nat) :
    framesBuilt (k + 1) s = (if builtFrame s then 1 else 0) + framesBuilt k u := by
  simp only [framesBuilt, h]

/-- No RESET among the next `k + 1` actions: none now, and none among the `k` after. -/
theorem reset_not_mem_take {actions : List HostAction} {k : Nat}
    (h : .reset ∉ actions.take (k + 1)) :
    actions.head? ≠ some .reset ∧ .reset ∉ actions.tail.take k := by
  cases actions with
  | nil => simp
  | cons action rest => simpa [eq_comm] using h

/-- Settles O32, by induction on the number of steps: each adds to `SEQ` what it adds to the count. -/
theorem seqCountsBuiltFrames : Obligations.SeqCountsBuiltFrames := by
  intro k
  induction k with
  | zero =>
    intro s t h _
    cases h
    exact (Nat.mod_eq_of_lt s.seq.isLt).symm
  | succ k ih =>
    intro s t h hreset
    obtain ⟨u, hu, hrun⟩ := run_succ h
    obtain ⟨hhead, htail⟩ := reset_not_mem_take hreset
    rw [← (step_keeps hu).1] at htail
    have hstep : u.seq.toNat = (s.seq.toNat + if builtFrame s then 1 else 0) % 256 := by
      rw [step_seq hu hhead]
      split
      · exact BitVec.toNat_add s.seq 1
      · exact (Nat.mod_eq_of_lt s.seq.isLt).symm
    rw [ih u t hrun htail, framesBuilt_succ hu, hstep]
    omega

/-! ## `ERRLOG` -/

/-- What an instruction does to `ERRLOG`: nothing, or one event of an FDEC that ends with the
rejection of the event's kind (R24, R204). -/
theorem exec_errlog (h : exec i s = .next t) :
    t.errlog = s.errlog ∨ ∃ a n kind status, i = .fdec a n ∧
      t.errlog = s.errlog ++ [⟨kind, s.byteAt (a.toNat + 3)⟩] ∧
      eventKindOf status = some kind ∧ statusOf (.next t) = some status := by
  obtain ⟨e, hp, rfl⟩ := exec_effect h
  cases e with
  | reject kind status q =>
    obtain ⟨hkind, a, n, hi, rfl⟩ := hp
    exact .inr ⟨a, n, kind, status, hi, rfl, hkind, rfl⟩
  | answer r => exact .inl rfl
  | write addr bytes => exact .inl rfl
  | build addr bytes v0 v1 v2 => exact .inl rfl

/-- Settles O38: of the actions but RESET only a command touches `ERRLOG`, by `exec_errlog`. -/
theorem errlogIsAppendOnly : Obligations.ErrlogIsAppendOnly := by
  intro s t h hreset
  rcases step_cases h with ⟨-, rfl⟩ | ⟨c, rest, hs, hc⟩ | ⟨addr, bytes, rest, -, -, rfl⟩ |
    ⟨addr, n, rest, -, -, rfl⟩ | ⟨e, rest, -, -, rfl⟩ | ⟨rest, -, -, rfl⟩ | ⟨rest, hs, -⟩
  case inr.inl =>
    rcases issue_cases hc with ⟨i, hd, hi⟩ | ⟨-, rfl⟩
    · rcases exec_errlog hi with hlog | ⟨a, n, kind, status, rfl, hlog, hkind, hstatus⟩
      · exact .inl hlog
      · refine .inr ⟨a, n, c, _, by rw [hs]; rfl, hd, hlog, rfl, ?_⟩
        rcases eventKindOf_eq_some.1 hkind with ⟨rfl, rfl⟩ | ⟨rfl, rfl⟩
        · exact .inl ⟨rfl, hstatus⟩
        · exact .inr ⟨rfl, hstatus⟩
    · exact .inl rfl
  case inr.inr.inr.inr.inr.inr => exact absurd (by rw [hs]; rfl) hreset
  all_goals exact .inl rfl

end Sys2Proof.Machine
end

section
/-!
PROOFS. The order of a 16-bit value's bytes in `BUF` (R42), the range check (R46, R205), and the
operations that only read (R47).
-/

namespace Sys2Proof.Machine

variable {i : Instr} {s t : State}

/-- Settles O9: the two bytes are those given to `MemWrite`, and `lo8` and `hi8` take apart what `le16`
puts together. -/
theorem halfStoredLowByteFirst : Obligations.HalfStoredLowByteFirst := by
  intro s x v
  have hlo : (s.memWrite x [lo8 v, hi8 v]).byteAt x = lo8 v :=
    s.byteAt_memWrite_inside x (i := 0) rfl
  have hhi : (s.memWrite x [lo8 v, hi8 v]).byteAt (x + 1) = hi8 v :=
    s.byteAt_memWrite_inside x (i := 1) rfl
  refine ⟨hlo, hhi, ?_, ?_⟩
  · rw [hlo, hhi, le16_lo8_hi8]
  · rw [← le16_toNat, le16_lo8_hi8]

/-! ## The checks that come first -/

/-- What an instruction reads lies in `BUF`, and nothing is written (R46). -/
theorem fitsBuf_iff_of_writeRange_none (hw : writeRange i = none) :
    FitsBuf i s ↔ s.inRange (readRange i).1 (readRange i).2 := by
  simp [FitsBuf, hw]

/-- What an instruction reads and what it writes lie in `BUF` (R46). -/
theorem fitsBuf_iff_of_writeRange_some {r : Nat × Nat} (hw : writeRange i = some r) :
    FitsBuf i s ↔ s.inRange (readRange i).1 (readRange i).2 ∧ s.inRange r.1 r.2 := by
  simp [FitsBuf, hw]

/-- The bytes a field touches lie in `BUF` exactly when its last byte does (R121, R122). -/
theorem State.inRange_touched_iff (s : State) {P w : Nat} (hw : 1 ≤ w) :
    s.inRange (firstByte P) (touched P w) ↔ lastByte P w < s.cfg.bufSize := by
  rw [State.inRange, firstByte_add_touched hw, Nat.add_one_le_iff]

/-- What a next state says of the checks every legal `op` passes first, in the order of R205: the
fields (R68), then the ranges (R46). A command that passes both ends with no interface error. -/
inductive Checked (i : Instr) (s : State) : State → Prop
  | illegalField (hf : ¬ i.WellFormed) : Checked i s (s.raise .errArg)
  | outOfRange (hf : i.WellFormed) (hr : ¬ FitsBuf i s) : Checked i s (s.raise .errRange)
  | passed {t : State} {status : Status} (hf : i.WellFormed) (hr : FitsBuf i s)
      (hst : statusOf (.next t) = some status) (hok : isInterfaceError status = false) :
      Checked i s t

/-- CRC8, CRC16, VCRC8 and VCRC16 make the range check alone (R105 to R108). -/
theorem checked_of_read {v0 v1 v2 : Word} (hf : i.WellFormed) (hw : writeRange i = none)
    (h : ¬ s.inRange (readRange i).1 (readRange i).2 ∧ t = s.raise .errRange ∨
      s.inRange (readRange i).1 (readRange i).2 ∧ t = s.done .ok v0 v1 v2) : Checked i s t := by
  have hfits := fitsBuf_iff_of_writeRange_none (s := s) hw
  rcases h with ⟨hr, rfl⟩ | ⟨hr, rfl⟩
  · exact .outOfRange hf (mt hfits.1 hr)
  · exact .passed hf (hfits.2 hr) rfl rfl

/-- GETBYTES and SETBYTES are the same copy (R128, R129). -/
theorem checked_of_copyBytes {a n d : Word} (hf : i.WellFormed)
    (hread : readRange i = (a.toNat, n.toNat)) (hwrite : writeRange i = some (d.toNat, n.toNat))
    (h : copyBytes a n d s = .next t) : Checked i s t := by
  have hfits := fitsBuf_iff_of_writeRange_some (s := s) hwrite
  rw [hread] at hfits
  rcases copyBytes_cases h with ⟨hr, rfl⟩ | ⟨ha, hd, rfl⟩
  · exact .outOfRange hf (mt hfits.1 hr)
  · exact .passed hf (hfits.2 ⟨ha, hd⟩) rfl rfl

theorem getbits_checked {a : Word} {h : Half} {w : Width}
    (e : exec (.getbits a h w) s = .next t) : Checked (.getbits a h w) s t := by
  have hfits := fitsBuf_iff_of_writeRange_none (i := .getbits a h w) (s := s) rfl
  rcases execGetbits_cases e with ⟨hw, rfl⟩ | ⟨hw, hr, rfl⟩ | ⟨hw, hr, rfl⟩
  · exact .illegalField hw
  · exact .outOfRange hw fun hc => hr.not_gt ((s.inRange_touched_iff hw.1).1 (hfits.1 hc))
  · exact .passed hw (hfits.2 ((s.inRange_touched_iff hw.1).2 hr)) rfl rfl

theorem setbits_checked {v a : Word} {h : Half} {w : Width}
    (e : exec (.setbits v a h w) s = .next t) : Checked (.setbits v a h w) s t := by
  have hfits := fitsBuf_iff_of_writeRange_some (i := .setbits v a h w) (s := s) rfl
  rcases execSetbits_cases e with ⟨hw, rfl⟩ | ⟨hw, hr, rfl⟩ | ⟨hw, hr, rfl⟩
  · exact .illegalField hw
  · exact .outOfRange hw fun hc => hr.not_gt ((s.inRange_touched_iff hw.1).1 (hfits.1 hc).1)
  · have hin := (s.inRange_touched_iff hw.1).2 hr
    exact .passed hw (hfits.2 ⟨hin, hin⟩) rfl rfl

theorem fenc_checked {h : Half} {a n d : Word}
    (e : exec (.fenc h a n d) s = .next t) : Checked (.fenc h a n d) s t := by
  have hfits := fitsBuf_iff_of_writeRange_some (i := .fenc h a n d) (s := s) rfl
  rcases execFenc_cases e with ⟨hn, rfl⟩ | ⟨hn, hr, rfl⟩ | ⟨hn, ha, hd, rfl⟩
  · exact .illegalField hn
  · exact .outOfRange hn (mt hfits.1 hr)
  · exact .passed hn (hfits.2 ⟨ha, hd⟩) rfl rfl

theorem fdec_checked {a n : Word} (e : exec (.fdec a n) s = .next t) : Checked (.fdec a n) s t := by
  have hfits := fitsBuf_iff_of_writeRange_none (i := .fdec a n) (s := s) rfl
  rcases execFdec_cases e with ⟨hr, rfl⟩ | ⟨hr, -, rfl⟩ | ⟨hr, -, -, -, rfl⟩ | ⟨hr, -, -, -, rfl⟩ |
    ⟨hr, -, -, -, -, rfl⟩ | ⟨hr, -, -, -, -, rfl⟩ | ⟨hr, -, -, -, -, rfl⟩
  · exact .outOfRange trivial (mt hfits.1 hr)
  all_goals exact .passed trivial (hfits.2 hr) rfl rfl

/-- Every instruction makes the checks of R205 first. -/
theorem exec_checked (e : exec i s = .next t) : Checked i s t := by
  cases i with
  | crc8 a n => exact checked_of_read trivial rfl (execCrc8_cases e)
  | crc16 a n => exact checked_of_read trivial rfl (execCrc16_cases e)
  | vcrc8 a n => exact checked_of_read trivial rfl (execVcrc8_cases e)
  | vcrc16 a n => exact checked_of_read trivial rfl (execVcrc16_cases e)
  | getbits a h w => exact getbits_checked e
  | setbits v a h w => exact setbits_checked e
  | getbytes a n d => exact checked_of_copyBytes trivial rfl rfl e
  | setbytes a n d => exact checked_of_copyBytes trivial rfl rfl e
  | fenc h a n d => exact fenc_checked e
  | fdec a n => exact fdec_checked e

/-- A legal instruction that could leave `BUF` is refused whole (R46). -/
theorem exec_of_not_fitsBuf (hf : i.WellFormed) (hr : ¬ FitsBuf i s) :
    exec i s = .next (s.raise .errRange) := by
  obtain ⟨t, ht⟩ := exec_next i s
  rw [ht]
  cases exec_checked ht with
  | illegalField hf' => exact absurd hf hf'
  | outOfRange => rfl
  | passed _ hr' => exact absurd hr' hr

/-- An instruction whose bytes all lie in `BUF` passes the range check (R46). -/
theorem statusOf_exec_ne_errRange (hr : FitsBuf i s) : statusOf (exec i s) ≠ some .errRange := by
  obtain ⟨t, ht⟩ := exec_next i s
  rw [ht]
  cases exec_checked ht with
  | illegalField => exact nofun
  | outOfRange _ hr' => exact absurd hr hr'
  | passed _ _ hst hok =>
    rw [hst]
    rintro ⟨⟩
    cases hok

/-- Settles O34: both directions are cases of `exec_checked`. -/
theorem rangeCheckFirst : Obligations.RangeCheckFirst :=
  ⟨fun _ _ => exec_of_not_fitsBuf, fun _ _ => statusOf_exec_ne_errRange⟩

/-! ## Reads -/

/-- An HREAD takes itself off the script and delivers; nothing else changes (R47, R222). -/
theorem step_hread {addr n : Nat} {rest : List HostAction} (hs : s.script = .hread addr n :: rest)
    (h : step s = .next t) : t = { s with script := rest, out := t.out } := by
  rcases step_cases h with ⟨hs', -⟩ | ⟨_, _, hs', -⟩ | ⟨_, _, _, hs', -⟩ | ⟨_, _, _, hs', -, rfl⟩ |
    ⟨_, _, hs', -⟩ | ⟨_, hs', -⟩ | ⟨_, hs', -⟩ <;> cases hs.symm.trans hs'
  rfl

/-- The effect of an instruction that writes nothing and is no FDEC is its response (R47). -/
theorem Effect.Permitted.eq_of_readOnly {e : Effect} (hp : e.Permitted i s)
    (hw : writeRange i = none) (hi : ∀ a n, i ≠ .fdec a n) :
    e.apply s = { s with out := (e.apply s).out } := by
  cases e with
  | answer r => rfl
  | reject kind status q =>
    obtain ⟨-, a, n, hf, -⟩ := hp
    exact absurd hf (hi a n)
  | write addr bytes => cases hw.symm.trans hp.2.1
  | build addr bytes v0 v1 v2 => cases hw.symm.trans hp.2.1

theorem exec_eq_of_readOnly (hw : writeRange i = none) (hi : ∀ a n, i ≠ .fdec a n)
    (h : exec i s = .next t) : t = { s with out := t.out } := by
  obtain ⟨e, hp, rfl⟩ := exec_effect h
  exact hp.eq_of_readOnly hw hi

/-- The events a status puts in `ERRLOG`, for a frame with sequence number `q` (R204). -/
def eventsOf (status : Status) (q : Byte) : List ErrEvent :=
  ((eventKindOf status).map fun kind => ⟨kind, q⟩).toList

/-- FDEC changes the response and, by the events of its status, `ERRLOG` (R147, R204). -/
theorem exec_fdec_frame {a n : Word} (h : exec (.fdec a n) s = .next t) :
    t = { s with out := t.out, errlog := t.errlog } ∧
    ∃ status, statusOf (.next t) = some status ∧
      t.errlog = s.errlog ++ eventsOf status (s.byteAt (a.toNat + 3)) := by
  rcases execFdec_cases h with ⟨-, rfl⟩ | ⟨-, -, rfl⟩ | ⟨-, -, -, -, rfl⟩ | ⟨-, -, -, -, rfl⟩ |
    ⟨-, -, -, -, -, rfl⟩ | ⟨-, -, -, -, -, rfl⟩ | ⟨-, -, -, -, -, rfl⟩ <;>
    exact ⟨rfl, _, rfl, by simp [eventsOf, eventKindOf]⟩

/-- Only the two checksum rejections log anything (R204). -/
theorem eventsOf_eq_nil {status : Status} (h8 : status ≠ .rejCrc8) (h16 : status ≠ .rejCrc16)
    (q : Byte) : eventsOf status q = [] := by
  have hnone : eventKindOf status = none := Option.eq_none_iff_forall_ne_some.2 fun kind hk => by
    rcases eventKindOf_eq_some.1 hk with ⟨-, hs⟩ | ⟨-, hs⟩
    · exact h8 hs
    · exact h16 hs
  rw [eventsOf, hnone]
  rfl

/-- Settles O40: HREAD by `step_hread`, the read-only operations by their effect, FDEC by the events of
its status. -/
theorem readOnlyOperations : Obligations.ReadOnlyOperations := by
  refine ⟨fun _ _ _ _ _ => step_hread, fun _ _ _ => exec_eq_of_readOnly, fun a n s t h => ?_⟩
  obtain ⟨hframe, status, hst, hlog⟩ := exec_fdec_frame h
  rw [hst, hlog]
  refine ⟨hlog ▸ hframe, ?_, ?_, fun h8 h16 => ?_⟩
  · rintro ⟨⟩
    rfl
  · rintro ⟨⟩
    rfl
  · rw [eventsOf_eq_nil (mt (congrArg some) h8) (mt (congrArg some) h16), List.append_nil]

end Sys2Proof.Machine
end

section
/-!
PROOFS. The encoding of the ten operations (R60 to R63, R72): the fields of a built word, and a word
taken apart and built again.
-/

namespace Sys2Proof

/-! ## The fields of a built word -/

section
variable {op : BitVec 4} {w : Width} {rsv : BitVec 6} {h : Half} {a n d : Word}

/-- A field of an assembled word, compared bit by bit (R60). -/
theorem extractLsb'_assemble {k start : Nat} {x : BitVec k}
    (hx : ∀ i < k, (assemble op w rsv h a n d).getLsbD (start + i) = x.getLsbD i) :
    (assemble op w rsv h a n d).extractLsb' start k = x :=
  BitVec.eq_of_getLsbD_eq fun i hi => by simp [hi, hx]

@[simp] theorem wField_assemble : wField (assemble op w rsv h a n d) = w :=
  extractLsb'_assemble fun i hi => by rw [getLsbD_assemble]; grind

@[simp] theorem hField_assemble : hField (assemble op w rsv h a n d) = h :=
  extractLsb'_assemble fun i hi => by rw [getLsbD_assemble]; grind

@[simp] theorem aField_assemble : aField (assemble op w rsv h a n d) = a :=
  extractLsb'_assemble fun i hi => by rw [getLsbD_assemble]; grind

@[simp] theorem nField_assemble : nField (assemble op w rsv h a n d) = n :=
  extractLsb'_assemble fun i hi => by rw [getLsbD_assemble]; grind

@[simp] theorem dField_assemble : dField (assemble op w rsv h a n d) = d :=
  extractLsb'_assemble fun i hi => by rw [getLsbD_assemble]; grind

end

/-- Masking a command word masks each of its fields (R60). -/
theorem and_assemble (c : Wide) (op : BitVec 4) (w : Width) (rsv : BitVec 6) (h : Half)
    (a n d : Word) :
    c &&& assemble op w rsv h a n d =
      assemble (opField c &&& op) (wField c &&& w) (rsvField c &&& rsv) (hField c &&& h)
        (aField c &&& a) (nField c &&& n) (dField c &&& d) := by
  refine BitVec.eq_of_getLsbD_eq fun i hi => ?_
  simp only [BitVec.getLsbD_and, getLsbD_assemble, opField, wField, rsvField, hField, aField,
    nField, dField, BitVec.getLsbD_extractLsb']
  grind

/-! ## Round trips -/

theorem decode_encode (i : Instr) : decode (encode i) = .ok i := by
  cases i <;> simp [encode, decode]

/-- Settles O1. -/
theorem decodeEncodeAgree : Obligations.DecodeEncodeAgree := decode_encode

theorem encode_injective {i j : Instr} (h : encode i = encode j) : i = j :=
  Except.ok.inj (by rw [← decode_encode i, h, decode_encode])

/-- The format of an operation (R61), as the fields it reads whole. -/
def fieldMask (i : Instr) : Wide :=
  match i with
  | .crc8 _ _ | .crc16 _ _ | .vcrc8 _ _ | .vcrc16 _ _ | .fdec _ _ =>
    assemble (.allOnes 4) 0 0 0 (.allOnes 32) (.allOnes 32) 0
  | .getbits _ _ _ => assemble (.allOnes 4) (.allOnes 6) 0 (.allOnes 16) (.allOnes 32) 0 0
  | .setbits _ _ _ _ =>
    assemble (.allOnes 4) (.allOnes 6) 0 (.allOnes 16) (.allOnes 32) (.allOnes 32) 0
  | .getbytes _ _ _ | .setbytes _ _ _ =>
    assemble (.allOnes 4) 0 0 0 (.allOnes 32) (.allOnes 32) (.allOnes 32)
  | .fenc _ _ _ _ =>
    assemble (.allOnes 4) 0 0 (.allOnes 16) (.allOnes 32) (.allOnes 32) (.allOnes 32)

theorem formatMask_opcode (i : Instr) : formatMask (opcode i) = fieldMask i := by
  cases i <;> rfl

theorem encode_of_decode {c : Wide} {i : Instr} (h : decode c = .ok i) :
    encode i = c &&& formatMask (opField c) := by
  have hop := decode_opcode h
  rw [hop, formatMask_opcode]
  unfold decode at h
  split at h <;> cases h <;>
    simp [encode, fieldMask, and_assemble, hop, opcode, -BitVec.reduceAllOnes]

/-- Settles O2: masked by the format of its `op`, a word keeps the fields its instruction has. -/
theorem encodeOfDecodeKeepsReadBits : Obligations.EncodeOfDecodeKeepsReadBits :=
  fun _ _ => encode_of_decode

/-- Settles O4, word by word. -/
theorem vectorWordsDecode : Obligations.VectorWordsDecode := by
  unfold Obligations.VectorWordsDecode
  decide

/-! ## Legal words, and the bits a word is read by -/

/-- A word whose `op` is in the operation map selects an operation (R63). -/
theorem exists_decode {c : Wide} (h1 : 1 ≤ (opField c).toNat) (hA : (opField c).toNat ≤ 0xA) :
    ∃ i, decode c = .ok i := by
  rcases hd : decode c with e | i
  · rcases decode_illegal.1 ⟨e, hd⟩ with h0 | hB
    · simp [h0] at h1
    · omega
  · exact ⟨i, rfl⟩

/-- FDEC's first operand is the field `a` (R61). -/
theorem aField_of_decode_fdec {c : Wide} {a n : Word} (h : decode c = .ok (.fdec a n)) :
    aField c = a := by
  unfold decode at h
  split at h <;> cases h
  rfl

/-- Every format reads `op` whole (R61, R67). -/
theorem opField_and_formatMask (c : Wide) (op : BitVec 4) :
    opField (c &&& formatMask op) = opField c := by
  have hmask : ∀ op, opField (formatMask op) = .allOnes 4 := by decide
  have hand : opField (c &&& formatMask op) = opField c &&& opField (formatMask op) :=
    BitVec.extractLsb'_and
  rw [hand, hmask, BitVec.and_allOnes]

/-- Words that agree on the bits their `op` reads have the same `op` (R67). -/
theorem opField_eq_of_and_formatMask_eq {c c' : Wide}
    (h : c &&& formatMask (opField c) = c' &&& formatMask (opField c)) :
    opField c = opField c' := by
  rw [← opField_and_formatMask c (opField c), h, opField_and_formatMask]

/-- Words that agree on the bits their `op` reads select the same instruction: each is written back
as those bits, and no two instructions are written alike (R67). -/
theorem decode_eq_of_and_formatMask_eq {c c' : Wide} {i : Instr}
    (h : c &&& formatMask (opField c) = c' &&& formatMask (opField c)) (hd : decode c = .ok i) :
    decode c' = .ok i := by
  have hop := opField_eq_of_and_formatMask_eq h
  rcases hd' : decode c' with e | j
  · have hillegal := decode_illegal.1 ⟨e, hd'⟩
    rw [← hop] at hillegal
    obtain ⟨e, he⟩ := decode_illegal.2 hillegal
    cases hd.symm.trans he
  · have hij : encode i = encode j := by
      rw [encode_of_decode hd, encode_of_decode hd', h, hop]
    rw [encode_injective hij]

end Sys2Proof
end

section
/-!
PROOFS. The answer to every command word: illegal words and fields (R67, R68), the results of
a response (R64), and the layouts of the words the block delivers (R64, R66).
-/

namespace Sys2Proof.Machine

variable {i : Instr} {s t : State} {c c' : Wide}

/-! ## Illegal words and illegal fields -/

theorem issue_of_illegal (h : opField c = 0 ∨ 0xB ≤ (opField c).toNat) :
    issue c s = .next (s.raise .errOp) := by
  obtain ⟨e, hd⟩ := decode_illegal.2 h
  rw [issue, hd]

/-- An instruction that ends with an interface error failed one of the two checks of R205. -/
theorem failed_check_of_isInterfaceError {status : Status} (hst : statusOf (exec i s) = some status)
    (he : isInterfaceError status = true) :
    status = .errArg ∧ ¬ i.WellFormed ∨ status = .errRange ∧ ¬ FitsBuf i s := by
  obtain ⟨t, ht⟩ := exec_next i s
  rw [ht] at hst
  cases exec_checked ht with
  | illegalField hf => exact .inl ⟨(Option.some.inj hst).symm, hf⟩
  | outOfRange _ hr => exact .inr ⟨(Option.some.inj hst).symm, hr⟩
  | passed _ _ hst' hok =>
    obtain rfl := Option.some.inj (hst'.symm.trans hst)
    cases hok.symm.trans he

/-- No operation ends with `ERR_OP` (R67). -/
theorem statusOf_exec_ne_errOp (i : Instr) (s : State) : statusOf (exec i s) ≠ some .errOp := by
  intro hst
  rcases failed_check_of_isInterfaceError hst rfl with ⟨⟨⟩, -⟩ | ⟨⟨⟩, -⟩

/-- An instruction with legal fields never ends with `ERR_ARG` (R68). -/
theorem statusOf_exec_ne_errArg (hf : i.WellFormed) : statusOf (exec i s) ≠ some .errArg := by
  intro hst
  rcases failed_check_of_isInterfaceError hst rfl with ⟨-, hf'⟩ | ⟨⟨⟩, -⟩
  exact hf' hf

/-- An instruction with an illegal field is refused whole (R68). -/
theorem exec_of_not_wellFormed (hf : ¬ i.WellFormed) : exec i s = .next (s.raise .errArg) := by
  obtain ⟨t, ht⟩ := exec_next i s
  rw [ht]
  cases exec_checked ht with
  | illegalField => rfl
  | outOfRange hf' => exact absurd hf' hf
  | passed hf' => exact absurd hf' hf

theorem not_legalWidth {w : Width} (h : w.toNat = 0 ∨ 32 < w.toNat) : ¬ legalWidth w := by
  rintro ⟨h1, h32⟩
  omega

/-- Settles O33: the listed values are those that `Instr.WellFormed` excludes. -/
theorem illegalFieldValues : Obligations.IllegalFieldValues :=
  ⟨fun _ _ _ _ hw => exec_of_not_wellFormed (not_legalWidth hw),
    fun _ _ _ _ _ hw => exec_of_not_wellFormed (not_legalWidth hw),
    fun _ _ _ _ _ hn => exec_of_not_wellFormed (Nat.not_le.2 hn),
    fun _ _ => statusOf_exec_ne_errArg⟩

/-- Bits that the `op` of a word does not read have no effect (R67). -/
theorem issue_congr (h : c &&& formatMask (opField c) = c' &&& formatMask (opField c)) :
    issue c s = issue c' s := by
  rcases hd : decode c with e | i
  · have hillegal := decode_illegal.1 ⟨e, hd⟩
    have hillegal' := hillegal
    rw [opField_eq_of_and_formatMask_eq h] at hillegal'
    rw [issue_of_illegal hillegal, issue_of_illegal hillegal']
  · rw [issue_of_decode hd, issue_of_decode (decode_eq_of_and_formatMask_eq h hd)]

/-- Settles O3: an illegal word by `issue_of_illegal`, a legal one because no operation ends with
`ERR_OP`, the ignored bits by `issue_congr`. -/
theorem illegalOpsAndIgnoredFields : Obligations.IllegalOpsAndIgnoredFields := by
  refine ⟨fun s c rest hs hop => ?_, fun s c rest hs h1 hA => ?_, fun s c c' => issue_congr⟩
  · rw [step_command hs, issue_of_illegal hop]
    rfl
  · obtain ⟨i, hd⟩ := exists_decode h1 hA
    obtain ⟨t, ht⟩ := exec_next i { s with script := rest }
    obtain ⟨hscript, -⟩ := exec_keeps ht
    have hstatus := statusOf_exec_ne_errOp i { s with script := rest }
    rw [ht] at hstatus
    exact ⟨t, by rw [step_command hs, issue_of_decode hd, ht], hscript, hstatus⟩

/-! ## The results of a response -/

/-- `seq * 2^16` as R64 writes it. -/
theorem seqWord_eq_ofNat (q : Byte) : seqWord q = BitVec.ofNat 32 (q.toNat * 2 ^ 16) := by
  apply BitVec.eq_of_toNat_eq
  simp [seqWord, Nat.shiftLeft_eq]

/-- What the response to a command word can carry (R64): the results its operation defines, none, or
the sequence number of a rejected frame. -/
inductive Reports (c : Wide) (s : State) : Response → Prop
  | ok {v0 v1 v2 : Word} (hword : (opField c).toNat ≤ 5 → v1 = 0 ∧ v2 = 0)
      (hnone : 6 ≤ (opField c).toNat → (opField c).toNat ≤ 8 → v0 = 0 ∧ v1 = 0 ∧ v2 = 0) :
      Reports c s ⟨.ok, v0, v1, v2⟩
  | noResult {status : Status} (hok : status ≠ .ok) (hkind : eventKindOf status = none) :
      Reports c s ⟨status, 0, 0, 0⟩
  | rejected {status : Status} {kind : EventKind} (hkind : eventKindOf status = some kind) :
      Reports c s ⟨status, 0, 0, seqWord (s.byteAt ((aField c).toNat + 3))⟩

/-- CRC8, CRC16, VCRC8, VCRC16 and GETBITS report one word (R64). -/
theorem Reports.word {v0 : Word} (hop : (opField c).toNat ≤ 5) : Reports c s ⟨.ok, v0, 0, 0⟩ :=
  .ok (fun _ => ⟨rfl, rfl⟩) fun h6 => by omega

/-- SETBITS, GETBYTES and SETBYTES report nothing (R64). -/
theorem Reports.done : Reports c s ⟨.ok, 0, 0, 0⟩ :=
  .ok (fun _ => ⟨rfl, rfl⟩) fun _ _ => ⟨rfl, rfl, rfl⟩

/-- FENC and FDEC report three words (R64). -/
theorem Reports.frame {v0 v1 v2 : Word} (hop : 9 ≤ (opField c).toNat) :
    Reports c s ⟨.ok, v0, v1, v2⟩ :=
  .ok (fun h5 => by omega) fun _ h8 => by omega

/-- A step's response, if it is one that R64 allows for the command word. -/
def Answers (c : Wide) (s t : State) : Prop := ∃ r, t.out = .response r ∧ Reports c s r

/-- An interface error is no `OK` and has no event (R202, R204). -/
theorem ne_ok_and_eventKindOf_of_isInterfaceError {status : Status} :
    isInterfaceError status = true → status ≠ .ok ∧ eventKindOf status = none := by
  cases status <;> decide

theorem Answers.raise {status : Status} (hst : isInterfaceError status = true) :
    Answers c s (s.raise status) := by
  obtain ⟨hok, hkind⟩ := ne_ok_and_eventKindOf_of_isInterfaceError hst
  exact ⟨_, rfl, .noResult hok hkind⟩

/-- CRC8, CRC16, VCRC8 and VCRC16 report one word or leave `BUF` (R105 to R108). -/
theorem answers_of_read {fits : Prop} {v0 : Word} (hop : (opField c).toNat ≤ 5)
    (h : ¬ fits ∧ t = s.raise .errRange ∨ fits ∧ t = s.done .ok v0 0 0) : Answers c s t := by
  rcases h with ⟨-, rfl⟩ | ⟨-, rfl⟩
  · exact .raise rfl
  · exact ⟨_, rfl, .word hop⟩

theorem fdec_answers {a n : Word} (hd : decode c = .ok (.fdec a n))
    (h : exec (.fdec a n) s = .next t) : Answers c s t := by
  obtain rfl := aField_of_decode_fdec hd
  have hop : 9 ≤ (opField c).toNat := by rw [decode_opcode hd]; simp [opcode]
  rcases execFdec_cases h with ⟨-, rfl⟩ | ⟨-, -, rfl⟩ | ⟨-, -, -, -, rfl⟩ | ⟨-, -, -, -, rfl⟩ |
    ⟨-, -, -, -, -, rfl⟩ | ⟨-, -, -, -, -, rfl⟩ | ⟨-, -, -, -, -, rfl⟩
  · exact .raise rfl
  · exact ⟨_, rfl, .noResult nofun rfl⟩
  · exact ⟨_, rfl, .noResult nofun rfl⟩
  · exact ⟨_, rfl, .rejected rfl⟩
  · exact ⟨_, rfl, .noResult nofun rfl⟩
  · exact ⟨_, rfl, .rejected rfl⟩
  · exact ⟨_, rfl, .frame hop⟩

theorem exec_answers (hd : decode c = .ok i) (h : exec i s = .next t) : Answers c s t := by
  have hop := congrArg BitVec.toNat (decode_opcode hd)
  cases i with
  | crc8 a n => exact answers_of_read (by simp [hop, opcode]) (execCrc8_cases h)
  | crc16 a n => exact answers_of_read (by simp [hop, opcode]) (execCrc16_cases h)
  | vcrc8 a n => exact answers_of_read (by simp [hop, opcode]) (execVcrc8_cases h)
  | vcrc16 a n => exact answers_of_read (by simp [hop, opcode]) (execVcrc16_cases h)
  | getbits a _ w =>
    rcases execGetbits_cases h with ⟨-, rfl⟩ | ⟨-, -, rfl⟩ | ⟨-, -, rfl⟩
    · exact .raise rfl
    · exact .raise rfl
    · exact ⟨_, rfl, .word (by simp [hop, opcode])⟩
  | setbits v a _ w =>
    rcases execSetbits_cases h with ⟨-, rfl⟩ | ⟨-, -, rfl⟩ | ⟨-, -, rfl⟩
    · exact .raise rfl
    · exact .raise rfl
    · exact ⟨_, rfl, .done⟩
  | getbytes a n d | setbytes a n d =>
    rcases copyBytes_cases h with ⟨-, rfl⟩ | ⟨-, -, rfl⟩
    · exact .raise rfl
    · exact ⟨_, rfl, .done⟩
  | fenc _ a n d =>
    rcases execFenc_cases h with ⟨-, rfl⟩ | ⟨-, -, rfl⟩ | ⟨-, -, -, rfl⟩
    · exact .raise rfl
    · exact .raise rfl
    · exact ⟨_, rfl, .frame (by simp [hop, opcode])⟩
  | fdec a n => exact fdec_answers hd h

theorem issue_next (c : Wide) (s : State) : ∃ t, issue c s = .next t := by
  rcases hd : decode c with e | i
  · exact ⟨_, issue_of_illegal (decode_illegal.1 ⟨e, hd⟩)⟩
  · rw [issue_of_decode hd]
    exact exec_next i s

/-- Every command word gets one response, with the results R64 allows it. -/
theorem issue_answers (c : Wide) (s : State) : ∃ t, issue c s = .next t ∧ Answers c s t := by
  obtain ⟨t, ht⟩ := issue_next c s
  refine ⟨t, ht, ?_⟩
  rcases issue_cases ht with ⟨i, hd, hi⟩ | ⟨-, rfl⟩
  · exact exec_answers hd hi
  · exact .raise rfl

/-! ## The delivered words -/

/-- The response word has the layout of a command word whose `op` is the status code and whose next
28 bits are 0 (R60, R64). -/
theorem responseWord_eq_assemble (r : Response) :
    responseWord r = assemble (statusCode r.status) 0 0 0 r.r0 r.r1 r.r2 := by
  refine BitVec.eq_of_getLsbD_eq fun i hi => ?_
  rw [getLsbD_assemble, responseWord]
  grind

/-- The fields of the response word (R64). -/
theorem responseWord_fields (r : Response) :
    (responseWord r).extractLsb' 0 4 = statusCode r.status ∧
    (responseWord r).extractLsb' 4 28 = 0 ∧ (responseWord r).extractLsb' 32 32 = r.r0 ∧
    (responseWord r).extractLsb' 64 32 = r.r1 ∧ (responseWord r).extractLsb' 96 32 = r.r2 := by
  rw [responseWord_eq_assemble]
  refine ⟨opField_assemble .., ?_, aField_assemble, nField_assemble, dField_assemble⟩
  exact extractLsb'_assemble fun i hi => by rw [getLsbD_assemble]; grind

/-- Settles O6: the layout by `responseWord_fields`, the response by `issue_answers`, the results
case by case of `Reports`. -/
theorem responseOfEveryCommand : Obligations.ResponseOfEveryCommand := by
  refine ⟨⟨rfl, rfl, rfl, rfl, rfl, rfl, rfl, rfl⟩, responseWord_fields, fun s c => ?_⟩
  obtain ⟨t, ht, r, hout, hr⟩ := issue_answers c s
  refine ⟨t, r, ht, hout, ?_⟩
  cases hr with
  | ok hword hnone => exact ⟨by simp, by simp, fun _ => hword, fun _ => hnone⟩
  | noResult hok hkind =>
    refine ⟨fun _ => ⟨rfl, rfl, rfl⟩, ?_, fun h => absurd h hok, fun h => absurd h hok⟩
    rintro (rfl | rfl) <;> cases hkind
  | rejected hkind =>
    rw [seqWord_eq_ofNat]
    rcases eventKindOf_eq_some.1 hkind with ⟨-, rfl⟩ | ⟨-, rfl⟩ <;> simp

theorem getLsbD_kindBit (kind : EventKind) :
    (kindBit kind).getLsbD 0 = decide (kind = .crc16) := by
  cases kind <;> rfl

/-- Settles O7: the event word is a concatenation of the three fields. -/
theorem eventWordLayout : Obligations.EventWordLayout := by
  refine fun e => ⟨BitVec.extractLsb'_append_eq_right, ?_, ?_⟩
  · rw [← getLsbD_kindBit, eventWord, BitVec.getLsbD_append, BitVec.getLsbD_append]
    rfl
  · rw [eventWord, BitVec.extractLsb'_append_eq_of_le (w := 8) (by decide)]
    exact BitVec.extractLsb'_append_eq_left

end Sys2Proof.Machine
end

section
/-!
PROOFS. The layout of a built frame in `BUF` (R69).
-/

namespace Sys2Proof.Machine

theorem toNat_lo8 (v : Half) : (lo8 v).toNat = v.toNat % 256 := by
  simp [lo8]

theorem toNat_hi8 (v : Half) : (hi8 v).toNat = v.toNat / 256 := by
  have hv := v.isLt
  simp only [hi8, BitVec.extractLsb'_toNat, Nat.shiftRight_eq_div_pow]
  omega

/-- A legal data length fits the 16-bit field of the header (R68, R69). -/
theorem toNat_setWidth_of_legalLength {n : Word} (hn : legalLength n) :
    (n.setWidth 16 : Half).toNat = n.toNat := by
  rw [BitVec.toNat_setWidth, Nat.mod_eq_of_lt (by omega)]

/-! ## The bytes of a frame -/

section
variable (cfg : Config) (h len : Half) (q : Byte) (data : List Byte)

theorem take_frameBytes_header : (frameBytes cfg h len q data).take 4 = frameHeader len q := rfl

theorem take_frameBytes_body :
    (frameBytes cfg h len q data).take (7 + data.length) = frameBody cfg h len q data :=
  List.take_left' (length_frameBody ..)

/-- The data stand from offset 7 on (R69). -/
theorem getElem?_frameBytes_data {k : Nat} (hk : k < data.length) :
    (frameBytes cfg h len q data)[7 + k]? = data[k]? := by
  rw [frameBytes, List.getElem?_append_left (by simpa using hk), frameBody,
    List.getElem?_append_right (by simp [frameHeader])]
  simp [frameHeader]

/-- The trailer stands after the body, low byte first (R69). -/
theorem getElem?_frameBytes_trailer (j : Nat) :
    (frameBytes cfg h len q data)[7 + data.length + j]? =
      [lo8 (c16 cfg (frameBody cfg h len q data)),
        hi8 (c16 cfg (frameBody cfg h len q data))][j]? := by
  rw [frameBytes, List.getElem?_append_right (by simp), length_frameBody, Nat.add_sub_cancel_left]

end

/-! ## The frame in `BUF` -/

section
variable {t : State} {addr k : Nat} {bytes : List Byte}

/-- The first bytes of a sequence that `BUF` holds. -/
theorem State.memRead_eq_take (h : t.memRead addr bytes.length = bytes) (hk : k ≤ bytes.length) :
    t.memRead addr k = bytes.take k := by
  obtain ⟨l, hl⟩ := Nat.exists_eq_add_of_le hk
  rw [hl, State.memRead_add] at h
  exact (List.take_left' (t.length_memRead addr k)).symm.trans (congrArg (List.take k) h)

/-- One byte of a sequence that `BUF` holds. -/
theorem State.byteAt_of_memRead {b : Byte} (h : t.memRead addr bytes.length = bytes)
    (hb : bytes[k]? = some b) : t.byteAt (addr + k) = b := by
  obtain ⟨hk, -⟩ := List.getElem?_eq_some_iff.1 hb
  rw [← h, State.getElem?_memRead, if_pos hk] at hb
  exact Option.some.inj hb

end

/-- A FENC within its bounds (R143). -/
theorem exec_fenc_of_inRange {h : Half} {a n d : Word} {s : State} (hn : legalLength n)
    (ha : s.inRange a.toNat n.toNat) (hd : s.inRange d.toNat (9 + n.toNat)) :
    exec (.fenc h a n d) s = .next ((s.memWrite d.toNat (frameBytes s.cfg h (n.setWidth 16)
      (seqUsed s) (s.memRead a.toNat n.toNat))).bumpSeq.done .ok (9 + n) d (seqWord (seqUsed s))) :=
  (if_neg (not_not.2 hn)).trans (if_neg (not_or.2 ⟨not_not.2 ha, not_not.2 hd⟩))

/-- It leaves the frame in `BUF`. -/
theorem exec_fenc_memRead {h : Half} {a n d : Word} {s : State} (hn : legalLength n)
    (ha : s.inRange a.toNat n.toNat) (hd : s.inRange d.toNat (9 + n.toNat)) {frame : List Byte}
    (hframe : frameBytes s.cfg h (n.setWidth 16) (seqUsed s) (s.memRead a.toNat n.toNat) = frame) :
    ∃ t, exec (.fenc h a n d) s = .next t ∧ t.memRead d.toNat frame.length = frame := by
  refine ⟨_, exec_fenc_of_inRange hn ha hd, ?_⟩
  rw [hframe]
  refine Eq.trans (State.memRead_congr fun _ _ => ?_) (s.memRead_memWrite d.toNat frame)
  rfl

/-- Settles O25: every offset of the frame that FENC leaves in `BUF`, the header by computation, the
data and the trailer by their place in `frameBytes`. -/
theorem frameLayout : Obligations.FrameLayout := by
  intro h a n d s hn ha hd
  have hd' : s.inRange d.toNat (9 + n.toNat) := by rw [State.inRange]; omega
  have hlength := toNat_setWidth_of_legalLength hn
  have hlen := s.length_memRead a.toNat n.toNat
  have hdata : ∀ k < n.toNat, (s.memRead a.toNat n.toNat)[k]? = some (s.byteAt (a.toNat + k)) :=
    fun k hk => by rw [State.getElem?_memRead, if_pos hk]
  obtain ⟨t, ht, hframe⟩ := exec_fenc_memRead (h := h) hn ha hd' rfl
  generalize s.memRead a.toNat n.toNat = data at hframe hlen hdata
  have hbyte {k : Nat} {b : Byte} := State.byteAt_of_memRead (k := k) (b := b) hframe
  have hheader := State.memRead_eq_take (k := 4) hframe (by simp; omega)
  have hbody := State.memRead_eq_take (k := 7 + data.length) hframe (by simp)
  rw [take_frameBytes_header] at hheader
  rw [take_frameBytes_body] at hbody
  have htrailer {j : Nat} {b : Byte} (hb : [lo8 (c16 s.cfg (t.memRead d.toNat (7 + data.length))),
      hi8 (c16 s.cfg (t.memRead d.toNat (7 + data.length)))][j]? = some b) :
      t.byteAt (d.toNat + (7 + data.length + j)) = b :=
    hbyte (by rw [getElem?_frameBytes_trailer, ← hbody, hb])
  rw [← hlen]
  refine ⟨t, ht, hbyte (k := 0) rfl, ?_, ?_, hbyte (k := 3) rfl, ?_, ?_, ?_, fun k hk => ?_, ?_, ?_⟩
  · rw [hbyte (k := 1) rfl, toNat_lo8, hlength, hlen]
  · rw [hbyte (k := 2) rfl, toNat_hi8, hlength, hlen]
  · rw [hheader, hbyte (k := 4) rfl]
  · rw [hbyte (k := 5) rfl, toNat_lo8]
  · rw [hbyte (k := 6) rfl, toNat_hi8]
  · rw [Nat.add_assoc]
    exact hbyte (by rw [getElem?_frameBytes_data _ _ _ _ _ hk, hdata k (hlen ▸ hk)])
  · rw [← toNat_lo8, ← htrailer (j := 0) rfl, Nat.add_assoc]
    rfl
  · rw [← toNat_hi8, ← htrailer (j := 1) rfl]
    congr 2
    omega

end Sys2Proof.Machine
end

section
/-!
PROOFS. The Checksum Engine (R100 to R109): what each of its operations answers, what the answer
depends on, the byte-wise form of the default functions, and the detection of an inverted bit.
-/

namespace Sys2Proof.Machine

variable {i : Instr} {s s' t t' : State} {a n : Word}

/-! ## What the operations answer -/

/-- An operation that only reads is refused whole when its range leaves `BUF` (R46). -/
theorem exec_of_readRange_outside (hf : i.WellFormed) (hw : writeRange i = none)
    (hr : s.cfg.bufSize < (readRange i).1 + (readRange i).2) :
    exec i s = .next (s.raise .errRange) :=
  exec_of_not_fitsBuf hf (mt (fitsBuf_iff_of_writeRange_none hw).1 (Nat.not_le.2 hr))

theorem exec_crc8_of_inRange (hr : s.inRange a.toNat n.toNat) :
    exec (.crc8 a n) s =
      .next (s.done .ok ((c8 s.cfg (s.memRead a.toNat n.toNat)).setWidth 32) 0 0) :=
  if_neg (not_not.2 hr)

theorem exec_crc16_of_inRange (hr : s.inRange a.toNat n.toNat) :
    exec (.crc16 a n) s =
      .next (s.done .ok ((c16 s.cfg (s.memRead a.toNat n.toNat)).setWidth 32) 0 0) :=
  if_neg (not_not.2 hr)

/-- The result of a verification, as R107 and R108 write it. -/
theorem matchWord_beq {k : Nat} (x y : BitVec k) : matchWord (x == y) = if x = y then 1 else 0 := by
  simp [matchWord]

/-- The value that VCRC16 compares with: the two bytes after the range, low byte first (R108). -/
def State.storedHalf (s : State) (x : Nat) : Half := le16 (s.byteAt x) (s.byteAt (x + 1))

theorem exec_vcrc8_of_inRange (hr : s.inRange a.toNat (n.toNat + 1)) :
    exec (.vcrc8 a n) s = .next (s.done .ok
      (if c8 s.cfg (s.memRead a.toNat n.toNat) = s.byteAt (a.toNat + n.toNat) then 1 else 0)
      0 0) := by
  rw [← matchWord_beq]
  exact if_neg (not_not.2 hr)

theorem exec_vcrc16_of_inRange (hr : s.inRange a.toNat (n.toNat + 2)) :
    exec (.vcrc16 a n) s = .next (s.done .ok
      (if c16 s.cfg (s.memRead a.toNat n.toNat) = s.storedHalf (a.toNat + n.toNat) then 1 else 0)
      0 0) := by
  rw [← matchWord_beq]
  exact if_neg (not_not.2 hr)

/-- Settles O10. -/
theorem crc8Result : Obligations.Crc8Result :=
  ⟨fun c h => by rw [decode, h]; rfl,
    fun a n _ hr => exec_of_readRange_outside (i := .crc8 a n) trivial rfl hr,
    fun _ _ _ hr => exec_crc8_of_inRange hr⟩

/-- Settles O11. -/
theorem crc16Result : Obligations.Crc16Result :=
  ⟨fun c h => by rw [decode, h]; rfl,
    fun a n _ hr => exec_of_readRange_outside (i := .crc16 a n) trivial rfl hr,
    fun _ _ _ hr => exec_crc16_of_inRange hr⟩

/-- Settles O12. -/
theorem vcrc8Result : Obligations.Vcrc8Result :=
  ⟨fun c h => by rw [decode, h]; rfl,
    fun a n _ hr => exec_of_readRange_outside (i := .vcrc8 a n) trivial rfl hr,
    fun _ _ _ hr => exec_vcrc8_of_inRange hr⟩

/-- Settles O13: equality with the stored value is equality of the numbers (R14). -/
theorem vcrc16Result : Obligations.Vcrc16Result := by
  refine ⟨fun c h => by rw [decode, h]; rfl,
    fun a n _ hr => exec_of_readRange_outside (i := .vcrc16 a n) trivial rfl hr, fun a n s hr => ?_⟩
  simp only [← le16_toNat, BitVec.toNat_inj]
  exact exec_vcrc16_of_inRange hr

/-! ## What the answer depends on -/

/-- Two operations that answer one word each deliver the same when the words are the same. -/
theorem out_eq_of_exec_done {i i' : Instr} {v v' : Word}
    (h : exec i s = .next (s.done .ok v 0 0)) (h' : exec i' s' = .next (s'.done .ok v' 0 0))
    (hv : v = v') (ht : exec i s = .next t) (ht' : exec i' s' = .next t') : t.out = t'.out := by
  cases h.symm.trans ht
  cases h'.symm.trans ht'
  rw [hv]
  rfl

/-- Settles O14: each answer is computed from the bytes of the range, which are read alike. -/
theorem checksumsDependOnlyOnTheBytes : Obligations.ChecksumsDependOnlyOnTheBytes := by
  refine ⟨fun i s t a n hi => ?_, fun s s' t t' a a' n hcfg hr hr' hb => ⟨?_, ?_⟩,
    fun s s' t t' a a' n hcfg hr hr' hb => ?_, fun s s' t t' a a' n hcfg hr hr' hb => ?_⟩
  · rcases hi with rfl | rfl | rfl | rfl <;> exact exec_eq_of_readOnly rfl nofun
  all_goals
    have hdata : s.memRead a.toNat n.toNat = s'.memRead a'.toNat n.toNat :=
      State.memRead_congr fun k hk => hb k (by omega)
    rw [hcfg] at hr'
  · exact out_eq_of_exec_done (exec_crc8_of_inRange hr) (exec_crc8_of_inRange hr')
      (by rw [hdata, hcfg])
  · exact out_eq_of_exec_done (exec_crc16_of_inRange hr) (exec_crc16_of_inRange hr')
      (by rw [hdata, hcfg])
  · exact out_eq_of_exec_done (exec_vcrc8_of_inRange hr) (exec_vcrc8_of_inRange hr')
      (by rw [hdata, hcfg, hb n.toNat (by omega)])
  · have hstored : s.storedHalf (a.toNat + n.toNat) = s'.storedHalf (a'.toNat + n.toNat) :=
      congrArg₂ le16 (hb n.toNat (by omega)) (hb (n.toNat + 1) (by omega))
    exact out_eq_of_exec_done (exec_vcrc16_of_inRange hr) (exec_vcrc16_of_inRange hr')
      (by rw [hdata, hcfg, hstored])

/-! ## The byte-wise form of a reflected CRC -/

section
variable {k : Nat} (poly : BitVec k)

/-- A bit step is additive over xor. -/
theorem crcBit_xor (c d : BitVec k) : crcBit poly (c ^^^ d) = crcBit poly c ^^^ crcBit poly d := by
  simp only [crcBit, BitVec.getLsbD_xor, BitVec.ushiftRight_xor_distrib]
  cases c.getLsbD 0 <;> cases d.getLsbD 0
  case false.false => rfl
  case false.true => exact BitVec.xor_assoc ..
  case true.false => simp [BitVec.xor_assoc, BitVec.xor_comm poly]
  case true.true => simp [BitVec.xor_assoc, BitVec.xor_comm poly]

theorem crcBits_xor (times : Nat) (c d : BitVec k) :
    crcBits poly times (c ^^^ d) = crcBits poly times c ^^^ crcBits poly times d := by
  induction times generalizing c d with
  | zero => rfl
  | succ times ih => rw [crcBits, crcBit_xor, ih, crcBits, crcBits]

/-- While zeros are shifted out the polynomial is never applied. -/
theorem crcBits_of_low_zero {times : Nat} {c : BitVec k} (hc : ∀ j < times, c.getLsbD j = false) :
    crcBits poly times c = c >>> times := by
  induction times generalizing c with
  | zero => simp [crcBits]
  | succ times ih =>
    have hstep : crcBit poly c = c >>> 1 := by simp [crcBit, hc 0]
    rw [crcBits, hstep, ih fun j hj => ?_, ← BitVec.shiftRight_add, Nat.add_comm]
    rw [BitVec.getLsbD_ushiftRight, hc _ (by omega)]

/-- One byte by the table (R103, R104): the bits above the low byte move down, and the low byte
goes through the table, whose entries are eight bit steps. -/
theorem crcByte_eq_table (c : BitVec k) (b : Byte) :
    crcByte poly c b = (c >>> 8) ^^^ crcBits poly 8 ((c.setWidth 8 ^^^ b).setWidth k) := by
  have hsplit : c ^^^ b.setWidth k = (c >>> 8 <<< 8) ^^^ (c.setWidth 8 ^^^ b).setWidth k := by
    refine BitVec.eq_of_getLsbD_eq fun j hj => ?_
    by_cases h8 : j < 8
    · simp [h8, hj]
    · have hj8 : 8 + (j - 8) = j := by omega
      simp [h8, hj, hj8]
  have hhigh : crcBits poly 8 (c >>> 8 <<< 8) = c >>> 8 := by
    rw [crcBits_of_low_zero poly fun j hj => by simp [hj]]
    refine BitVec.eq_of_getLsbD_eq fun j hj => ?_
    simpa using BitVec.lt_of_getLsbD
  rw [crcByte, hsplit, crcBits_xor, hhigh]

/-- The checksum of one more byte. -/
theorem crcFrom_concat (init : BitVec k) (bytes : List Byte) (b : Byte) :
    crcFrom poly init (bytes ++ [b]) = crcByte poly (crcFrom poly init bytes) b := by
  simp [crcFrom]

end

/-- Settles O15: the listed values by computation, the recurrences by `crcFrom_concat` and, for the
16-bit function, the table. -/
theorem bytewiseTableForm : Obligations.BytewiseTableForm := by
  refine ⟨⟨rfl, rfl⟩, fun c => ⟨rfl, fun k => rfl⟩, fun c => ⟨rfl, fun k => rfl⟩, by decide,
    by decide, ⟨?_, ?_⟩, fun bytes b => ?_, fun bytes b => ?_⟩
  · simp [crc8Standard, crcFrom, crcByte, crcBits, crcBit]
  · simp [crc16Standard, crcFrom, crcByte, crcBits, crcBit]
  · rw [crc8Standard, crcFrom_concat, crcByte, BitVec.setWidth_eq, crc8Standard]
  · rw [crc16Standard, crcFrom_concat, crcByte_eq_table, crc16Standard]

/-! ## The detection of an inverted bit -/

/-- The state after bit `j` of the byte at `x` is inverted. -/
def State.invertBit (s : State) (x j : Nat) : State := s.memWrite x [s.byteAt x ^^^ (1#8 <<< j)]

@[simp] theorem State.invertBit_cfg (s : State) (x j : Nat) : (s.invertBit x j).cfg = s.cfg := rfl

theorem State.byteAt_invertBit_same (s : State) (x j : Nat) :
    (s.invertBit x j).byteAt x = s.byteAt x ^^^ (1#8 <<< j) :=
  s.byteAt_memWrite_inside x (i := 0) rfl

theorem State.byteAt_invertBit_ne (s : State) {x y : Nat} (j : Nat) (hy : y ≠ x) :
    (s.invertBit x j).byteAt y = s.byteAt y :=
  s.byteAt_memWrite_outside (by rw [List.length_singleton]; omega)

theorem State.byteAt_invertBit_changed (s : State) (x : Nat) {j : Nat} (hj : j < 8) :
    (s.invertBit x j).byteAt x ≠ s.byteAt x := by
  rw [State.byteAt_invertBit_same]
  intro h
  have hbit := congrArg (fun b => BitVec.getLsbD b j) h
  simp [hj] at hbit

/-- Inverting a bit inside a range changes exactly one bit of what is read from it (P1 of R101). -/
theorem State.memRead_invertBit_inside (s : State) {addr n i j : Nat} (hi : i < n) (hj : j < 8) :
    OneBitChanged (s.memRead addr n) ((s.invertBit (addr + i) j).memRead addr n) := by
  refine ⟨i, j, by simpa using hi, hj, List.ext_getElem? fun l => ?_⟩
  rw [List.getElem?_modify, State.getElem?_memRead, State.getElem?_memRead]
  by_cases hl : l = i
  · subst hl
    simp [hi, State.byteAt_invertBit_same]
  · rw [State.byteAt_invertBit_ne s j (by omega)]
    simp [Ne.symm hl]

/-- Inverting a bit after a range leaves what is read from it. -/
theorem State.memRead_invertBit_after (s : State) {addr n x : Nat} (j : Nat) (hx : addr + n ≤ x) :
    (s.invertBit x j).memRead addr n = s.memRead addr n :=
  State.memRead_congr fun _ _ => s.byteAt_invertBit_ne j (by omega)

theorem le16_inj {b0 b1 d0 d1 : Byte} : le16 b0 b1 = le16 d0 d1 ↔ b0 = d0 ∧ b1 = d1 := by
  refine ⟨fun h => ⟨?_, ?_⟩, fun ⟨h0, h1⟩ => by rw [h0, h1]⟩
  · rw [← lo8_le16 b0 b1, h, lo8_le16]
  · rw [← hi8_le16 b0 b1, h, hi8_le16]

/-- Inverting a bit of a stored 16-bit value changes the value. -/
theorem State.storedHalf_invertBit_changed (s : State) {x y j : Nat} (hy : y = x ∨ y = x + 1)
    (hj : j < 8) : (s.invertBit y j).storedHalf x ≠ s.storedHalf x := by
  intro h
  obtain ⟨h0, h1⟩ := le16_inj.1 h
  rcases hy with rfl | rfl
  · exact s.byteAt_invertBit_changed _ hj h0
  · exact s.byteAt_invertBit_changed _ hj h1

section
variable {addr n i j : Nat} (hd : ChecksumsDetect s.cfg) (hj : j < 8)
include hd hj

/-- A stored 8-bit checksum no longer matches after one bit of range or checksum is inverted
(R109). -/
theorem c8_ne_byteAt_invertBit (h : s.byteAt (addr + n) = c8 s.cfg (s.memRead addr n))
    (hi : i < n + 1) :
    c8 s.cfg ((s.invertBit (addr + i) j).memRead addr n) ≠
      (s.invertBit (addr + i) j).byteAt (addr + n) := by
  by_cases hin : i < n
  · rw [s.byteAt_invertBit_ne j (by omega), h]
    exact hd.bit8 _ _ (s.memRead_invertBit_inside hin hj)
  · obtain rfl : i = n := by omega
    rw [s.memRead_invertBit_after j le_rfl, ← h]
    exact (s.byteAt_invertBit_changed _ hj).symm

/-- A stored 16-bit checksum no longer matches after one bit of range or checksum is inverted
(R109). -/
theorem c16_ne_storedHalf_invertBit (h : s.storedHalf (addr + n) = c16 s.cfg (s.memRead addr n))
    (hi : i < n + 2) :
    c16 s.cfg ((s.invertBit (addr + i) j).memRead addr n) ≠
      (s.invertBit (addr + i) j).storedHalf (addr + n) := by
  by_cases hin : i < n
  · have hstored : (s.invertBit (addr + i) j).storedHalf (addr + n) = s.storedHalf (addr + n) :=
      congrArg₂ le16 (s.byteAt_invertBit_ne j (by omega)) (s.byteAt_invertBit_ne j (by omega))
    rw [hstored, h]
    exact hd.bit16 _ _ (s.memRead_invertBit_inside hin hj)
  · rw [s.memRead_invertBit_after j (by omega), ← h]
    exact (s.storedHalf_invertBit_changed (by omega) hj).symm

end

/-- Settles O16: the answers of the verifications, with the match decided by P1 of R101. -/
theorem verifyRoundTrip : Obligations.VerifyRoundTrip := by
  refine ⟨fun s a n hc hr h => ⟨?_, ?_⟩, fun s a n hc hr hlo hhi => ?_⟩
  · rw [exec_vcrc8_of_inRange hr, if_pos h.symm, State.done]
  · rintro i j _ hi hj rfl
    have hanswer := exec_vcrc8_of_inRange (s := s.invertBit (a.toNat + i) j) hr
    rwa [State.invertBit_cfg, if_neg (c8_ne_byteAt_invertBit hc.detect hj h hi)] at hanswer
  · have hstored : s.storedHalf (a.toNat + n.toNat) = c16 s.cfg (s.memRead a.toNat n.toNat) := by
      rw [State.storedHalf, hlo, hhi, le16_lo8_hi8]
    refine ⟨?_, ?_⟩
    · rw [exec_vcrc16_of_inRange hr, if_pos hstored.symm, State.done]
    · rintro i j _ hi hj rfl
      have hanswer := exec_vcrc16_of_inRange (s := s.invertBit (a.toNat + i) j) hr
      rwa [State.invertBit_cfg, if_neg (c16_ne_storedHalf_invertBit hc.detect hj hstored hi)]
        at hanswer

end Sys2Proof.Machine
end

section
/-!
PROOFS. The Bit-Field Codec (R120 to R130): the number a field holds, what a write of a field and a
copy leave in `BUF`, and the answers of GETBITS, SETBITS, GETBYTES and SETBYTES.
-/

namespace Sys2Proof.Machine

variable {i : Instr} {s t : State} {v a n d : Word} {h : Half} {w : Width}

/-! ## The number a field holds -/

/-- The lowest digit of a number in base `b`, and the digits above it. -/
theorem sum_digits_succ (b k : Nat) (digit : Nat → Nat) :
    ∑ i ∈ Finset.range (k + 1), digit i * b ^ i =
      digit 0 + b * ∑ i ∈ Finset.range k, digit (i + 1) * b ^ i := by
  rw [Finset.sum_range_succ', pow_zero, mul_one, Nat.add_comm, Finset.mul_sum]
  congr 1
  exact Finset.sum_congr rfl fun i _ => by ring

/-- The bit form of R122. -/
theorem State.fieldValue_eq_sum (s : State) (P w : Nat) :
    s.fieldValue P w = ∑ i ∈ Finset.range w, (s.bitAt (P + i)).toNat * 2 ^ i := by
  induction w generalizing P with
  | zero => rfl
  | succ w ih =>
    simp only [State.fieldValue, ih, sum_digits_succ, Nat.add_zero, Nat.add_right_comm,
      Nat.add_assoc]

/-- The number X of R122 and R124, byte by byte. -/
theorem State.leNat_memRead_eq_sum (s : State) (addr k : Nat) :
    leNat (s.memRead addr k) = ∑ j ∈ Finset.range k, (s.byteAt (addr + j)).toNat * 256 ^ j := by
  induction k generalizing addr with
  | zero => rfl
  | succ k ih =>
    simp only [State.memRead, leNat, ih, sum_digits_succ, Nat.add_zero, Nat.add_right_comm,
      Nat.add_assoc]

/-- Bit `j` of the byte at `x` is absolute bit `8*x + j` (R43). -/
theorem State.bitAt_byte (s : State) (x : Nat) {j : Nat} (hj : j < 8) :
    s.bitAt (8 * x + j) = (s.byteAt x).getLsbD j := by
  have hx : (8 * x + j) / 8 = x ∧ (8 * x + j) % 8 = j := by omega
  rw [State.bitAt, hx.1, hx.2]

/-- Bit `q` of the number read from a range is the bit of `BUF` that many bits after its start
(R43). -/
theorem State.testBit_leNat_memRead (s : State) {addr k q : Nat} (hq : q < 8 * k) :
    (leNat (s.memRead addr k)).testBit q = s.bitAt (8 * addr + q) := by
  have hk : q / 8 < k := by omega
  have hsplit : 8 * addr + q = 8 * (addr + q / 8) + q % 8 := by omega
  rw [testBit_leNat, List.getD, State.getElem?_memRead, if_pos hk, Option.getD_some, hsplit,
    s.bitAt_byte _ (Nat.mod_lt q (by decide))]

/-- The byte form of R122. -/
theorem State.fieldValue_eq_shiftRight (s : State) {P w : Nat} (hw : 1 ≤ w) :
    s.fieldValue P w =
      (leNat (s.memRead (firstByte P) (touched P w)) >>> (P % 8)) % 2 ^ w := by
  have hfield := field_in_touched (P := P) hw
  have hstart : 8 * firstByte P + P % 8 = P := Nat.div_add_mod P 8
  refine Nat.eq_of_testBit_eq fun i => ?_
  rw [State.testBit_fieldValue, Nat.testBit_mod_two_pow]
  by_cases hi : i < w
  · rw [Nat.testBit_shiftRight, State.testBit_leNat_memRead _ (by omega), ← Nat.add_assoc, hstart]
  · simp [hi]

/-- A field of legal width fits a result (R122). -/
theorem State.toNat_ofNat_fieldValue (s : State) (P : Nat) (hw : legalWidth w) :
    (BitVec.ofNat 32 (s.fieldValue P w.toNat)).toNat = s.fieldValue P w.toNat :=
  Nat.mod_eq_of_lt ((s.fieldValue_lt P w.toNat).trans_le (Nat.pow_le_pow_right two_pos hw.2))

/-! ## What the bit operations answer -/

theorem exec_getbits_of_inRange (hw : legalWidth w)
    (hr : lastByte (bitPos a h) w.toNat < s.cfg.bufSize) :
    exec (.getbits a h w) s =
      .next (s.done .ok (BitVec.ofNat 32 (s.fieldValue (bitPos a h) w.toNat)) 0 0) :=
  (if_neg (not_not.2 hw)).trans (if_neg hr.not_ge)

/-- The state after the number `v` is stored in the `w` bits from `P` and the command has responded
(R124). -/
def State.storeField (s : State) (P w v : Nat) : State :=
  (s.memWrite (firstByte P) (s.fieldBytes P w v)).done .ok 0 0 0

theorem exec_setbits_of_inRange (hw : legalWidth w)
    (hr : lastByte (bitPos a h) w.toNat < s.cfg.bufSize) :
    exec (.setbits v a h w) s = .next (s.storeField (bitPos a h) w.toNat v.toNat) :=
  (if_neg (not_not.2 hw)).trans (if_neg hr.not_ge)

/-- A bit operation whose last byte is outside `BUF` is refused whole (R122, R124). -/
theorem exec_of_lastByte_outside (hi : i = .getbits a h w ∨ i = .setbits v a h w)
    (hw : legalWidth w) (hr : s.cfg.bufSize ≤ lastByte (bitPos a h) w.toNat) :
    exec i s = .next (s.raise .errRange) := by
  have hout : ¬ s.inRange (firstByte (bitPos a h)) (touched (bitPos a h) w.toNat) :=
    fun hin => hr.not_gt ((s.inRange_touched_iff hw.1).1 hin)
  rcases hi with rfl | rfl
  · exact exec_of_not_fitsBuf hw fun hf => hout hf.1
  · exact exec_of_not_fitsBuf hw fun hf => hout hf.1

/-- Settles O17: the answer holds the number of the field, which has a bit form and a byte form. -/
theorem getbitsResult : Obligations.GetbitsResult := by
  refine ⟨fun c hop => by rw [decode, hop]; rfl, fun a h w s => ⟨fun hw => ?_, fun h1 h32 hr => ?_,
    fun h1 h32 hr => ⟨_, exec_getbits_of_inRange ⟨h1, h32⟩ hr, ?_⟩⟩⟩
  · exact exec_of_not_wellFormed (not_legalWidth hw)
  · exact exec_of_lastByte_outside (v := 0) (.inl rfl) ⟨h1, h32⟩ hr
  · rw [State.toNat_ofNat_fieldValue _ _ ⟨h1, h32⟩, ← State.leNat_memRead_eq_sum]
    exact ⟨s.fieldValue_eq_sum _ _, s.fieldValue_eq_shiftRight h1, s.fieldValue_lt _ _⟩

/-- Settles O21: a read-only operation, whose meaning names the position and not its operands, and
whose effect is that of every state that agrees on the bytes touched. -/
theorem getbitsIsAPureRead : Obligations.GetbitsIsAPureRead := by
  refine ⟨fun a h w s t => exec_eq_of_readOnly (i := .getbits a h w) rfl nofun,
    fun a a' h h' w s hP => ?_, fun a h w s s' t t' hcfg hb ht ht' => ?_⟩
  · have hP' : bitPos a h = bitPos a' h' := hP
    simp only [exec, execGetbits, hP']
  · by_cases hw : legalWidth w
    · have hlast := firstByte_add_touched (P := bitPos a h) hw.1
      have hagree : AgreeOn s s' (firstByte (bitPos a h)) (touched (bitPos a h) w.toNat) :=
        fun x hlo hhi => hb x hlo (by omega)
      obtain ⟨e, -, he⟩ := getbits_hasEffect a h w s
      cases (he s (.refl _ s)).symm.trans ht
      cases (he s' ⟨hcfg, hagree, fun ⟨_, _, _, _, hi⟩ => nomatch hi⟩).symm.trans ht'
      exact e.apply_out s s'
    · cases (exec_of_not_wellFormed (i := .getbits a h w) hw).symm.trans ht
      cases (exec_of_not_wellFormed (i := .getbits a h w) hw).symm.trans ht'
      rfl

/-! ## A field after a write -/

section
variable {P w v : Nat}

/-- An earlier response leaves no trace after a write of a field. -/
@[simp] theorem State.storeField_done (s : State) (status : Status) (v0 v1 v2 : Word)
    (P w v : Nat) : (s.done status v0 v1 v2).storeField P w v = s.storeField P w v := by
  have hbytes : (s.done status v0 v1 v2).fieldBytes P w v = s.fieldBytes P w v :=
    AgreeOn.fieldBytes (s := s) (s' := s.done status v0 v1 v2) (fun _ _ _ => rfl) v
  rw [State.storeField, hbytes]
  rfl

/-- The bits inside the field are those of `v` (R124, R125). -/
theorem State.bitAt_storeField_inside (s : State) {j : Nat} (hj : j < w) :
    (s.storeField P w v).bitAt (P + j) = v.testBit j := by
  refine (s.bitAt_write_field P w v (P + j) (by omega)).trans ?_
  rw [if_pos (by omega), Nat.add_sub_cancel_left]

/-- The bits outside the field are as before (R126). -/
theorem State.bitAt_storeField_outside (s : State) {Q : Nat} (hw : 1 ≤ w)
    (hQ : Q < P ∨ P + w ≤ Q) : (s.storeField P w v).bitAt Q = s.bitAt Q :=
  (s.bitAt_write_field P w v Q hw).trans (if_neg (by omega))

/-- The bytes that the field does not touch are as before (R126). -/
theorem State.byteAt_storeField_outside (s : State) {x : Nat} (hw : 1 ≤ w)
    (hx : x < firstByte P ∨ lastByte P w < x) : (s.storeField P w v).byteAt x = s.byteAt x := by
  have hlast := firstByte_add_touched (P := P) hw
  exact s.byteAt_memWrite_outside (by rw [length_fieldBytes]; omega)

/-- A field read after it is written (R127). -/
theorem State.fieldValue_storeField_same (s : State) :
    (s.storeField P w v).fieldValue P w = v % 2 ^ w := by
  refine Nat.eq_of_testBit_eq fun j => ?_
  rw [State.testBit_fieldValue, Nat.testBit_mod_two_pow]
  by_cases hj : j < w
  · rw [s.bitAt_storeField_inside hj]
  · simp [hj]

/-- A write does not disturb a field that shares no bit with it (R127). -/
theorem State.fieldValue_storeField_disjoint (s : State) {P' w' : Nat} (hw : 1 ≤ w)
    (hd : P + w ≤ P' ∨ P' + w' ≤ P) :
    (s.storeField P w v).fieldValue P' w' = s.fieldValue P' w' :=
  State.fieldValue_congr fun _ _ => s.bitAt_storeField_outside hw (by omega)

/-- Two states with the same bits have the same bytes. -/
theorem State.byteAt_eq_of_bitAt_eq (hb : ∀ Q, s.bitAt Q = t.bitAt Q) (x : Nat) :
    s.byteAt x = t.byteAt x :=
  State.byteAt_eq_of_bits fun _ _ => hb _

/-- Writing a field twice is writing it once (R127). -/
theorem State.byteAt_storeField_twice (s : State) (hw : 1 ≤ w) (x : Nat) :
    ((s.storeField P w v).storeField P w v).byteAt x = (s.storeField P w v).byteAt x := by
  refine State.byteAt_eq_of_bitAt_eq (fun Q => ?_) x
  by_cases hQ : Q < P ∨ P + w ≤ Q
  · exact State.bitAt_storeField_outside _ hw hQ
  · obtain ⟨j, rfl⟩ := Nat.exists_eq_add_of_le (show P ≤ Q by omega)
    rw [State.bitAt_storeField_inside _ (by omega), State.bitAt_storeField_inside _ (by omega)]

/-- Writes of fields that share no bit commute (R127). -/
theorem State.byteAt_storeField_comm (s : State) {P' w' v' : Nat} (hw : 1 ≤ w) (hw' : 1 ≤ w')
    (hd : P + w ≤ P' ∨ P' + w' ≤ P) (x : Nat) :
    ((s.storeField P w v).storeField P' w' v').byteAt x =
      ((s.storeField P' w' v').storeField P w v).byteAt x := by
  refine State.byteAt_eq_of_bitAt_eq (fun Q => ?_) x
  by_cases hQ : Q < P ∨ P + w ≤ Q
  · rw [State.bitAt_storeField_outside _ hw hQ]
    by_cases hQ' : Q < P' ∨ P' + w' ≤ Q
    · rw [State.bitAt_storeField_outside _ hw' hQ', State.bitAt_storeField_outside _ hw' hQ',
        State.bitAt_storeField_outside _ hw hQ]
    · obtain ⟨j, rfl⟩ := Nat.exists_eq_add_of_le (show P' ≤ Q by omega)
      rw [State.bitAt_storeField_inside _ (by omega), State.bitAt_storeField_inside _ (by omega)]
  · obtain ⟨j, rfl⟩ := Nat.exists_eq_add_of_le (show P ≤ Q by omega)
    rw [State.bitAt_storeField_outside _ hw' (by omega), State.bitAt_storeField_inside _ (by omega),
      State.bitAt_storeField_inside _ (by omega)]

/-- The complement of a mask of `n` bits, as a subtraction (R124). -/
theorem two_pow_sub_one_xor {n M : Nat} (hM : M < 2 ^ n) : (2 ^ n - 1) ^^^ M = 2 ^ n - 1 - M := by
  refine Nat.eq_of_testBit_eq fun i => ?_
  rw [Nat.sub_sub, Nat.add_comm 1, Nat.testBit_two_pow_sub_succ hM, Nat.testBit_xor,
    Nat.testBit_two_pow_sub_one]
  by_cases hi : i < n
  · simp [hi]
  · simp [hi, Nat.testBit_lt_two_pow (hM.trans_le (Nat.pow_le_pow_right two_pos (not_lt.1 hi)))]

/-- The mask of a field fits the bytes the field touches (R124). -/
theorem shiftedMask_lt_two_pow (hw : 1 ≤ w) :
    (2 ^ w - 1) * 2 ^ (P % 8) < 2 ^ (8 * touched P w) := by
  have hfield := field_in_touched (P := P) hw
  have hstart : 8 * firstByte P + P % 8 = P := Nat.div_add_mod P 8
  calc (2 ^ w - 1) * 2 ^ (P % 8)
      < 2 ^ w * 2 ^ (P % 8) :=
        Nat.mul_lt_mul_of_pos_right (Nat.sub_one_lt (Nat.two_pow_pos w).ne') (Nat.two_pow_pos _)
    _ = 2 ^ (w + P % 8) := (pow_add ..).symm
    _ ≤ 2 ^ (8 * touched P w) := Nat.pow_le_pow_right two_pos (by omega)

/-- The bytes that the field touches are those of X' (R124). -/
theorem State.byteAt_storeField_touched (s : State) {j : Nat} (hw : 1 ≤ w) (hj : j < touched P w) :
    (s.storeField P w v).byteAt (firstByte P + j) = BitVec.ofNat 8
      ((leNat (s.memRead (firstByte P) (touched P w)) &&&
          (2 ^ (8 * touched P w) - 1 - (2 ^ w - 1) * 2 ^ (P % 8)) |||
        v % 2 ^ w * 2 ^ (P % 8)) >>> (8 * j)) := by
  have hlt : j < (s.fieldBytes P w v).length := by rwa [length_fieldBytes]
  have hget : (s.fieldBytes P w v)[j]? = some ((s.fieldBytes P w v).getD j 0) := by
    rw [List.getD, List.getElem?_eq_getElem hlt, Option.getD_some]
  refine (s.byteAt_memWrite_inside _ hget).trans ?_
  rw [State.fieldBytes, getD_leBytes _ _ _ hj, mergeField,
    two_pow_sub_one_xor (shiftedMask_lt_two_pow hw)]

end

/-- Settles O18: the answer, the bits and the bytes of the state after a write of a field. -/
theorem setbitsResult : Obligations.SetbitsResult := by
  refine ⟨fun c hop => by rw [decode, hop]; rfl, fun v a h w s => ⟨fun hw => ?_,
    fun h1 h32 hr => ?_, fun h1 h32 hr => ⟨_, exec_setbits_of_inRange ⟨h1, h32⟩ hr, rfl,
      fun i hi => ?_, fun Q => s.bitAt_storeField_outside h1, fun j hj => ?_,
      fun x => s.byteAt_storeField_outside h1⟩⟩⟩
  · exact exec_of_not_wellFormed (not_legalWidth hw)
  · exact exec_of_lastByte_outside (.inr rfl) ⟨h1, h32⟩ hr
  · rw [Nat.testBit_mod_two_pow, decide_eq_true hi, Bool.true_and]
    exact s.bitAt_storeField_inside hi
  · rw [← State.leNat_memRead_eq_sum]
    exact s.byteAt_storeField_touched h1 hj

/-! ## Any number of fields -/

/-- The fields that SETBITS accepts: legal width, last byte in `BUF` (R124). -/
def FieldWrite.Fits (f : FieldWrite) (s : State) : Prop :=
  legalWidth f.w ∧ lastByte (bitPos f.a f.h) f.w.toNat < s.cfg.bufSize

/-- The state after the SETBITS of a field. -/
def FieldWrite.store (s : State) (f : FieldWrite) : State :=
  s.storeField (bitPos f.a f.h) f.w.toNat f.v.toNat

/-- The number a field holds. -/
def FieldWrite.valueIn (f : FieldWrite) (s : State) : Nat := s.fieldValue (bitPos f.a f.h) f.w.toNat

theorem FieldWrite.valueIn_store_same (f : FieldWrite) (s : State) :
    f.valueIn (f.store s) = f.v.toNat % 2 ^ f.w.toNat :=
  s.fieldValue_storeField_same

/-- Packing fields that SETBITS accepts is storing each in order. -/
theorem packFields_of_fits {fields : List FieldWrite} (hf : ∀ f ∈ fields, f.Fits s) :
    packFields fields s = .next (fields.foldl FieldWrite.store s) := by
  induction fields generalizing s with
  | nil => rfl
  | cons f rest ih =>
    obtain ⟨hfit, hrest⟩ := List.forall_mem_cons.1 hf
    rw [packFields, exec_setbits_of_inRange hfit.1 hfit.2]
    exact ih (s := f.store s) hrest

theorem cfg_foldl_store (fields : List FieldWrite) (s : State) :
    (fields.foldl FieldWrite.store s).cfg = s.cfg := by
  induction fields generalizing s with
  | nil => rfl
  | cons f rest ih => exact ih (f.store s)

/-- A bit outside all the fields is as before (R126). -/
theorem bitAt_foldl_store {fields : List FieldWrite} {Q : Nat} (hw : ∀ f ∈ fields, 1 ≤ f.w.toNat)
    (hQ : ∀ f ∈ fields, Q < f.bits.1 ∨ f.bits.2 ≤ Q) :
    (fields.foldl FieldWrite.store s).bitAt Q = s.bitAt Q := by
  induction fields generalizing s with
  | nil => rfl
  | cons f rest ih =>
    obtain ⟨hwf, hwrest⟩ := List.forall_mem_cons.1 hw
    obtain ⟨hQf, hQrest⟩ := List.forall_mem_cons.1 hQ
    exact (ih hwrest hQrest).trans (s.bitAt_storeField_outside hwf hQf)

/-- A field that shares no bit with any of the fields packed holds what it held (R127). -/
theorem FieldWrite.valueIn_foldl_store {f : FieldWrite} {fields : List FieldWrite}
    (hw : ∀ g ∈ fields, 1 ≤ g.w.toNat) (hd : ∀ g ∈ fields, f.Disjoint g) :
    f.valueIn (fields.foldl FieldWrite.store s) = f.valueIn s := by
  refine State.fieldValue_congr fun j hj => bitAt_foldl_store hw fun g hg => ?_
  have hdisjoint := hd g hg
  simp only [FieldWrite.Disjoint, FieldWrite.bits] at hdisjoint ⊢
  omega

/-- Of fields that share no bit, each one holds its value after all are packed: the later ones do
not disturb it (R127). -/
theorem FieldWrite.valueIn_packed {fields : List FieldWrite} (hw : ∀ g ∈ fields, 1 ≤ g.w.toNat)
    (hd : fields.Pairwise FieldWrite.Disjoint) :
    ∀ f ∈ fields, f.valueIn (fields.foldl FieldWrite.store s) = f.v.toNat % 2 ^ f.w.toNat := by
  induction fields generalizing s with
  | nil => exact fun _ hf => absurd hf List.not_mem_nil
  | cons g rest ih =>
    obtain ⟨hg, hrest⟩ := List.pairwise_cons.1 hd
    have hwrest := List.forall_mem_of_forall_mem_cons hw
    refine List.forall_mem_cons.2 ⟨?_, ih hwrest hrest⟩
    exact (FieldWrite.valueIn_foldl_store hwrest hg).trans (g.valueIn_store_same s)

/-- GETBITS answers the number the field holds (R122). -/
theorem FieldWrite.Fits.exec_getbits {f : FieldWrite} (hf : f.Fits s) :
    exec (.getbits f.a f.h f.w) s = .next (s.done .ok (BitVec.ofNat 32 (f.valueIn s)) 0 0) :=
  exec_getbits_of_inRange hf.1 hf.2

/-- Settles O20: the fields packed one after the other, each read back after the last. -/
theorem packedFieldsReadBack : Obligations.PackedFieldsReadBack := by
  intro fields s hf hd
  have hw : ∀ f ∈ fields, 1 ≤ f.w.toNat := fun f hm => (hf f hm).1.1
  refine ⟨_, packFields_of_fits hf, fun f hm => ?_, fun Q => bitAt_foldl_store hw⟩
  have hfit : f.Fits (fields.foldl FieldWrite.store s) := by
    rw [FieldWrite.Fits, cfg_foldl_store]
    exact hf f hm
  rw [hfit.exec_getbits, FieldWrite.valueIn_packed hw hd f hm]
  rfl

/-- Settles O19: the laws of a stored field, for the states after SETBITS. -/
theorem setThenGetRoundTrip : Obligations.SetThenGetRoundTrip := by
  refine ⟨fun s v a h w hw hr => ⟨_, exec_setbits_of_inRange hw hr, ?_, fun hv => ?_, _,
    exec_setbits_of_inRange hw hr, s.byteAt_storeField_twice hw.1⟩,
    fun s f g hwf hwg hrf hrg hd => ⟨⟨_, _, packFields_of_fits ?_, packFields_of_fits ?_,
      s.byteAt_storeField_comm hwf.1 hwg.1 hd⟩, _, _, _, exec_setbits_of_inRange hwf hrf,
      exec_getbits_of_inRange hwg hrg, exec_getbits_of_inRange hwg hrg, ?_⟩⟩
  · rw [exec_getbits_of_inRange (s := s.storeField _ _ _) hw hr, State.fieldValue_storeField_same]
    rfl
  · rw [Nat.mod_eq_of_lt hv, BitVec.ofNat_toNat, BitVec.setWidth_eq]
  · simpa [FieldWrite.Fits] using ⟨⟨hwf, hrf⟩, hwg, hrg⟩
  · simpa [FieldWrite.Fits] using ⟨⟨hwg, hrg⟩, hwf, hrf⟩
  · have hread : g.valueIn (f.store s) = g.valueIn s :=
      s.fieldValue_storeField_disjoint hwf.1 hd
    exact congrArg (fun x => Delivery.response ⟨.ok, BitVec.ofNat 32 x, 0, 0⟩) hread.symm

/-! ## Copies -/

/-- The state after a copy: the source read whole, then written (R128, R129). -/
def State.copied (s : State) (a n d : Nat) : State :=
  (s.memWrite d (s.memRead a n)).done .ok 0 0 0

theorem copyBytes_of_inRange (ha : s.inRange a.toNat n.toNat) (hd : s.inRange d.toNat n.toNat) :
    copyBytes a n d s = .next (s.copied a.toNat n.toNat d.toNat) :=
  if_neg (not_or.2 ⟨not_not.2 ha, not_not.2 hd⟩)

theorem copyBytes_of_outside (hr : ¬ s.inRange a.toNat n.toNat ∨ ¬ s.inRange d.toNat n.toNat) :
    copyBytes a n d s = .next (s.raise .errRange) :=
  if_pos hr

section
variable {a n d : Nat}

/-- Inside the destination stands what stood in the source (R128). -/
theorem State.byteAt_copied_inside (s : State) {k : Nat} (hk : k < n) :
    (s.copied a n d).byteAt (d + k) = s.byteAt (a + k) :=
  s.byteAt_memWrite_inside d (by rw [State.getElem?_memRead, if_pos hk])

/-- Outside the destination nothing changes (R128). -/
theorem State.byteAt_copied_outside (s : State) {x : Nat} (hx : x < d ∨ d + n ≤ x) :
    (s.copied a n d).byteAt x = s.byteAt x :=
  s.byteAt_memWrite_outside (by rwa [State.length_memRead])

/-- A copy of bytes leaves the bytes that a read of them as one field and a write of its number
leave (R130). -/
theorem State.byteAt_copied_eq_storeField (s : State) (hn : 1 ≤ n) (x : Nat) :
    (s.copied a n d).byteAt x =
      (s.storeField (8 * d) (8 * n) (s.fieldValue (8 * a) (8 * n))).byteAt x := by
  by_cases hx : x < d ∨ d + n ≤ x
  · rw [s.byteAt_copied_outside hx,
      s.byteAt_storeField_outside (by omega) (by simp only [firstByte, lastByte]; omega)]
  · obtain ⟨k, rfl⟩ := Nat.exists_eq_add_of_le (show d ≤ x by omega)
    have hk : k < n := by omega
    refine State.byteAt_eq_of_bits fun j hj => ?_
    have hcopied : (s.copied a n d).bitAt (8 * (d + k) + j) = s.bitAt (8 * (a + k) + j) := by
      rw [State.bitAt_byte _ _ hj, State.bitAt_byte _ _ hj, s.byteAt_copied_inside hk]
    have hoffset (y : Nat) : 8 * (y + k) + j = 8 * y + (8 * k + j) := by omega
    rw [hcopied, hoffset, hoffset, s.bitAt_storeField_inside (by omega), State.testBit_fieldValue,
      decide_eq_true (by omega), Bool.true_and]

end

/-- Settles O22: both mnemonics are the same copy. -/
theorem copiesAreSnapshots : Obligations.CopiesAreSnapshots := by
  refine ⟨fun c hop => by rw [decode, hop]; rfl, fun c hop => by rw [decode, hop]; rfl,
    fun i a n d s hi => ?_⟩
  have hcopy : exec i s = copyBytes a n d s := by rcases hi with rfl | rfl <;> rfl
  rw [hcopy]
  exact ⟨fun hr => copyBytes_of_outside (hr.imp Nat.not_le.2 Nat.not_le.2), fun ha hd =>
    ⟨_, copyBytes_of_inRange ha hd, rfl, fun k => s.byteAt_copied_inside,
      fun x => s.byteAt_copied_outside⟩⟩

/-! ## The byte form and the bit form -/

/-- The 8-bit field at a byte address is the byte (R130). -/
theorem State.fieldValue_byte (s : State) (x : Nat) :
    s.fieldValue (8 * x) 8 = (s.byteAt x).toNat := by
  refine Nat.eq_of_testBit_eq fun j => ?_
  rw [State.testBit_fieldValue]
  by_cases hj : j < 8
  · rw [decide_eq_true hj, Bool.true_and, s.bitAt_byte x hj, BitVec.getLsbD]
  · rw [decide_eq_false hj, Bool.false_and]
    exact (BitVec.getLsbD_of_ge _ j (not_lt.1 hj)).symm

/-- The last byte of a field of whole bytes (R121). -/
theorem lastByte_lt_of_inRange {a n : Nat} (hn : 1 ≤ n) (hr : s.inRange a n) :
    lastByte (8 * a) (8 * n) < s.cfg.bufSize := by
  rw [State.inRange] at hr
  simp only [lastByte]
  omega

/-- Settles O23: no byte moves when `n` is 0, where the bit operations have no legal width;
otherwise `State.byteAt_copied_eq_storeField` compares the two ways. -/
theorem byteAndBitFormsAgree : Obligations.ByteAndBitFormsAgree := by
  refine ⟨fun x s hx => ?_, fun a n d s hn ha hd => ?_⟩
  · have hr : lastByte (bitPos x 0) (8 : Width).toNat < s.cfg.bufSize :=
      lastByte_lt_of_inRange (n := 1) le_rfl hx
    have hbyte : s.fieldValue (bitPos x 0) (8 : Width).toNat = (s.byteAt x.toNat).toNat :=
      s.fieldValue_byte x.toNat
    rw [exec_getbits_of_inRange (by decide) hr, hbyte, BitVec.ofNat_toNat]
    rfl
  have hwidth : (BitVec.ofNat 6 (8 * n.toNat)).toNat = 8 * n.toNat := by
    rw [BitVec.toNat_ofNat]
    omega
  have hcopy : exec (.getbytes a n d) s = .next (s.copied a.toNat n.toNat d.toNat) :=
    copyBytes_of_inRange ha hd
  obtain hn0 | hn1 := Nat.eq_zero_or_pos n.toNat
  · have hw : ¬ legalWidth (BitVec.ofNat 6 (8 * n.toNat)) := not_legalWidth (by omega)
    refine ⟨_, _, _, _, hcopy, exec_of_not_wellFormed hw, rfl, fun h1 => by omega,
      exec_of_not_wellFormed hw, fun y => ?_⟩
    exact s.byteAt_copied_outside (by omega)
  · have hw : legalWidth (BitVec.ofNat 6 (8 * n.toNat)) := by
      rw [legalWidth, hwidth]
      omega
    have hra := lastByte_lt_of_inRange hn1 ha
    have hrd := lastByte_lt_of_inRange hn1 hd
    rw [← hwidth] at hra hrd
    refine ⟨_, _, _, _, hcopy, exec_getbits_of_inRange hw hra, rfl, fun _ => rfl,
      exec_setbits_of_inRange hw hrd, fun y => ?_⟩
    rw [State.toNat_ofNat_fieldValue _ _ hw, State.storeField_done, hwidth]
    exact s.byteAt_copied_eq_storeField hn1 y

end Sys2Proof.Machine
end

section
/-!
PROOFS. The Inner Frame Codec (R140 to R157): what FENC and FDEC answer, how far FDEC reads, and what
it makes of a built frame and of a changed one.
-/

namespace Sys2Proof.Machine

variable {s s' t t' : State} {a n d m : Word} {h : Half}

/-! ## FENC -/

/-- Settles O24: the two refusals, then the frame read back from the bytes written. -/
theorem fencResult : Obligations.FencResult := by
  refine ⟨fun c hop => by rw [decode, hop]; rfl, fun h a n d s =>
    ⟨fun hn => exec_of_not_wellFormed (Nat.not_le.2 hn), fun hn hr => ?_, fun hn ha hd => ?_⟩⟩
  · refine exec_of_not_fitsBuf (i := .fenc h a n d) hn fun ⟨ha, hd⟩ => ?_
    have hsource : a.toNat + n.toNat ≤ s.cfg.bufSize := ha
    have hframe : d.toNat + (9 + n.toNat) ≤ s.cfg.bufSize := hd _ rfl
    omega
  · rw [Nat.add_assoc] at hd
    have hlength : (frameBytes s.cfg h (n.setWidth 16) (seqUsed s)
      (s.memRead a.toNat n.toNat)).length = 9 + n.toNat := by simp
    rw [BitVec.ofNat_toNat, Nat.add_assoc d.toNat]
    refine ⟨_, exec_fenc_of_inRange hn ha hd, ?_, hlength, fun k hk => ?_, fun x hx => ?_⟩
    · have hseq : s.seq + 1 = BitVec.ofNat 8 ((s.seq.toNat + 1) % 256) :=
        BitVec.eq_of_toNat_eq (by simp)
      have hbytes : 9 + n = BitVec.ofNat 32 (9 + n.toNat) := BitVec.eq_of_toNat_eq (by simp)
      rw [seqWord_eq_ofNat, hbytes, ← hseq]
      rfl
    · rw [← hlength] at hk
      exact (congrArg some (s.byteAt_memWrite_inside d.toNat (List.getElem?_eq_getElem hk))).trans
        (List.getElem?_eq_getElem hk).symm
    · exact s.byteAt_memWrite_outside (by rwa [hlength])

/-! ## The answers of FDEC: one lemma per outcome of R147, in the order of its tests (R205) -/

/-- The header of the frame at `A` carries its own checksum (R147). -/
abbrev State.HeaderMatches (s : State) (A : Nat) : Prop :=
  c8 s.cfg (s.memRead A 4) = s.byteAt (A + 4)

/-- The declared frame at `A` ends with the checksum of what stands before it (R147). -/
abbrev State.TrailerMatches (s : State) (A : Nat) : Prop :=
  c16 s.cfg (s.memRead A (7 + declaredLength s A)) =
    le16 (s.byteAt (A + 7 + declaredLength s A)) (s.byteAt (A + 8 + declaredLength s A))

theorem declaredLength_eq (s : State) (A : Nat) :
    declaredLength s A = (s.byteAt (A + 1)).toNat + 256 * (s.byteAt (A + 2)).toNat :=
  le16_toNat ..

section
variable (hr : s.inRange a.toNat n.toNat)
include hr

theorem exec_fdec_rejSof (hs : n.toNat < 1 ∨ s.byteAt a.toNat ≠ sof) :
    exec (.fdec a n) s = .next (s.done .rejSof 0 0 0) :=
  (if_neg (not_not.2 hr)).trans (if_pos hs)

variable (hsof : s.byteAt a.toNat = sof)
include hsof

theorem exec_fdec_short (h1 : 1 ≤ n.toNat) (h5 : n.toNat < 5) :
    exec (.fdec a n) s = .next (s.done .rejTrunc 0 0 0) :=
  (if_neg (not_not.2 hr)).trans
    ((if_neg (not_or.2 ⟨Nat.not_lt.2 h1, not_not.2 hsof⟩)).trans (if_pos h5))

theorem exec_fdec_rejCrc8 (h5 : 5 ≤ n.toNat) (hh : ¬ s.HeaderMatches a.toNat) :
    exec (.fdec a n) s = .next ((s.emit .crc8 (s.byteAt (a.toNat + 3))).done .rejCrc8 0 0
      (seqWord (s.byteAt (a.toNat + 3)))) := by
  rw [exec_fdec_of_header (.refl _ s) hr hsof h5, if_pos hh]

theorem exec_fdec_rejTrunc (h5 : 5 ≤ n.toNat) (hh : s.HeaderMatches a.toNat)
    (hL : n.toNat < 9 + declaredLength s a.toNat) :
    exec (.fdec a n) s = .next (s.done .rejTrunc 0 0 0) := by
  rw [exec_fdec_of_header (.refl _ s) hr hsof h5, if_neg (not_not.2 hh), if_pos hL]

variable (hh : s.HeaderMatches a.toNat) (hL : 9 + declaredLength s a.toNat ≤ n.toNat)
include hh hL

theorem exec_fdec_rejCrc16 (ht : ¬ s.TrailerMatches a.toNat) :
    exec (.fdec a n) s = .next ((s.emit .crc16 (s.byteAt (a.toNat + 3))).done .rejCrc16 0 0
      (seqWord (s.byteAt (a.toNat + 3)))) := by
  rw [exec_fdec_of_header (.refl _ s) hr hsof (by omega), if_neg (not_not.2 hh),
    if_neg (Nat.not_lt.2 hL), if_pos ht]

theorem exec_fdec_ok (ht : s.TrailerMatches a.toNat) :
    exec (.fdec a n) s = .next (s.done .ok
      ((le16 (s.byteAt (a.toNat + 5)) (s.byteAt (a.toNat + 6))).setWidth 32) (a + 7)
      ((le16 (s.byteAt (a.toNat + 1)) (s.byteAt (a.toNat + 2))).setWidth 32
        + seqWord (s.byteAt (a.toNat + 3)))) := by
  rw [exec_fdec_of_header (.refl _ s) hr hsof (by omega), if_neg (not_not.2 hh),
    if_neg (Nat.not_lt.2 hL), if_neg (not_not.2 ht)]

end

/-- A 16-bit value as a 32-bit result (R64). -/
theorem setWidth_le16 (b0 b1 : Byte) :
    (le16 b0 b1).setWidth 32 = BitVec.ofNat 32 (b0.toNat + 256 * b1.toNat) := by
  rw [← le16_toNat, BitVec.ofNat_toNat]

/-- Settles O26: clause by clause the answers above, with 16-bit values written as numbers. -/
theorem fdecResult : Obligations.FdecResult := by
  refine ⟨fun c hop => by rw [decode, hop]; rfl, fun a n s => ?_⟩
  have htrailer : s.TrailerMatches a.toNat ↔
      (c16 s.cfg (s.memRead a.toNat (7 + declaredLength s a.toNat))).toNat =
        (s.byteAt (a.toNat + 7 + declaredLength s a.toNat)).toNat +
          256 * (s.byteAt (a.toNat + 8 + declaredLength s a.toNat)).toNat := by
    rw [State.TrailerMatches, ← le16_toNat, BitVec.toNat_inj]
  simp only [← declaredLength_eq s a.toNat, ← htrailer, ← seqWord_eq_ofNat]
  refine ⟨fun hr => exec_of_readRange_outside (i := .fdec a n) trivial rfl hr,
    fun hr => exec_fdec_rejSof hr, fun hr h1 hsof => exec_fdec_short hr hsof h1,
    fun hr hsof => exec_fdec_rejCrc8 hr hsof, fun hr hsof => exec_fdec_rejTrunc hr hsof,
    fun hr hsof => exec_fdec_rejCrc16 hr hsof, fun hr hsof hh hL ht => ?_⟩
  have hdata : a + 7 = BitVec.ofNat 32 (a.toNat + 7) := BitVec.eq_of_toNat_eq (by simp)
  rw [exec_fdec_ok hr hsof hh hL ht, setWidth_le16, setWidth_le16, hdata, seqWord_eq_ofNat,
    ← BitVec.ofNat_add, declaredLength_eq]
  rfl

/-! ## What FDEC accepts -/

/-- The conditions of R155. -/
theorem statusOf_exec_fdec_eq_ok : statusOf (exec (.fdec a n) s) = some .ok ↔
    s.inRange a.toNat n.toNat ∧ s.byteAt a.toNat = sof ∧ s.HeaderMatches a.toNat ∧
      9 + declaredLength s a.toNat ≤ n.toNat ∧ s.TrailerMatches a.toNat := by
  refine ⟨fun hok => ?_, fun ⟨hr, hsof, hh, hL, ht⟩ => by rw [exec_fdec_ok hr hsof hh hL ht]; rfl⟩
  obtain ⟨t, ht⟩ := exec_next (.fdec a n) s
  rw [ht] at hok
  rcases execFdec_cases ht with ⟨-, rfl⟩ | ⟨-, -, rfl⟩ | ⟨-, -, -, -, rfl⟩ | ⟨-, -, -, -, rfl⟩ |
    ⟨-, -, -, -, -, rfl⟩ | ⟨-, -, -, -, -, rfl⟩ | ⟨hr, hsof, hh, hL, h16, rfl⟩
  case inr.inr.inr.inr.inr.inr => exact ⟨hr, hsof, hh, hL, h16⟩
  all_goals cases hok

/-- An operation that answers one word, 1 when a condition holds and else 0, answers 1 exactly when
it holds. -/
theorem answers_one_iff {p : Prop} [Decidable p] :
    (Host.Outcome.next (s.done .ok (if p then 1 else 0) 0 0) : Result) =
      .next (s.done .ok 1 0 0) ↔ p := by
  by_cases hp : p <;> simp [State.done, hp]

/-- The trailer is what VCRC16 compares with (R108). -/
theorem State.storedHalf_trailer (s : State) (A L : Nat) :
    s.storedHalf (A + (7 + L)) = le16 (s.byteAt (A + 7 + L)) (s.byteAt (A + 8 + L)) := by
  rw [State.storedHalf, ← Nat.add_assoc, Nat.add_right_comm (A + 7)]

/-- Settles O27: both sides are the conditions of `statusOf_exec_fdec_eq_ok`, those on checksums said
by the verify operations, which the declared length keeps in range. -/
theorem fdecAcceptsExactly : Obligations.FdecAcceptsExactly := by
  intro a n s hr
  have hlt : declaredLength s a.toNat < 2 ^ 16 := BitVec.isLt _
  simp only [← declaredLength_eq s a.toNat, statusOf_exec_fdec_eq_ok, and_iff_right hr]
  refine ⟨⟨fun ⟨hsof, hh, hL, ht⟩ => ⟨by omega, hsof, hh.symm, hL, ht.symm⟩,
    fun ⟨_, hsof, hh, hL, ht⟩ => ⟨hsof, hh.symm, hL, ht.symm⟩⟩, and_congr_right fun _ => ?_⟩
  rw [and_left_comm, and_left_comm (b := 9 + _ ≤ _)]
  refine and_congr_right fun hL => ?_
  have hn : (BitVec.ofNat 32 (7 + declaredLength s a.toNat)).toNat = 7 + declaredLength s a.toNat :=
    (BitVec.toNat_ofNat _ _).trans (Nat.mod_eq_of_lt (by omega))
  have h8 := exec_vcrc8_of_inRange (s := s) (a := a) (n := 4) (by simp; omega)
  have h16 := exec_vcrc16_of_inRange (s := s) (a := a)
    (n := BitVec.ofNat 32 (7 + declaredLength s a.toNat)) (by rw [hn]; simp; omega)
  rw [hn, State.storedHalf_trailer] at h16
  rw [h8, h16]
  exact (and_congr answers_one_iff answers_one_iff).symm

/-! ## How far FDEC reads -/

/-- FDEC compares the number of available bytes with 1, 5 and, behind a matching header, the length of
the declared frame, and does nothing else with it (R147). -/
theorem exec_fdec_congr {k : Word} (hr : s.inRange a.toNat n.toNat)
    (hk : s.inRange a.toNat k.toNat) (h1 : n.toNat < 1 ↔ k.toNat < 1)
    (h5 : n.toNat < 5 ↔ k.toNat < 5)
    (hL : 5 ≤ n.toNat → s.HeaderMatches a.toNat →
      (n.toNat < 9 + declaredLength s a.toNat ↔ k.toNat < 9 + declaredLength s a.toNat)) :
    exec (.fdec a n) s = exec (.fdec a k) s := by
  by_cases hs : n.toNat < 1 ∨ s.byteAt a.toNat ≠ sof
  · rw [exec_fdec_rejSof hr hs, exec_fdec_rejSof hk (hs.imp_left h1.1)]
  obtain ⟨hn1, hsof⟩ := not_or.1 hs
  replace hsof := not_not.1 hsof
  by_cases hn5 : n.toNat < 5
  · rw [exec_fdec_short hr hsof (by omega) hn5, exec_fdec_short hk hsof (by omega) (h5.1 hn5)]
  · rw [exec_fdec_of_header (.refl _ s) hr hsof (by omega),
      exec_fdec_of_header (.refl _ s) hk hsof (by omega)]
    by_cases hh : s.HeaderMatches a.toNat
    · simp only [hL (by omega) hh]
    · rw [if_pos hh, if_pos hh]

/-- Two runs that deliver the same and log the same. -/
def SameAnswer (s t s' t' : State) : Prop :=
  t'.out = t.out ∧ ∃ events, t.errlog = s.errlog ++ events ∧ t'.errlog = s'.errlog ++ events

theorem SameAnswer.of_nothing_logged (h : SameAnswer s t s' t') (hlog : t.errlog = s.errlog) :
    t'.out = t.out ∧ t.errlog = s.errlog ∧ t'.errlog = s'.errlog := by
  obtain ⟨hout, events, he, he'⟩ := h
  obtain rfl := List.append_right_eq_self.1 (he.symm.trans hlog)
  exact ⟨hout, hlog, by rw [he', List.append_nil]⟩

/-- Two FDEC that each answer as if only `k` bytes were available answer the same when these are the
same bytes (R35). -/
theorem sameAnswer_of_agreeOn {k : Word} (hcfg : s.cfg = s'.cfg) (hb : AgreeOn s s' a.toNat k.toNat)
    (hn : exec (.fdec a n) s = exec (.fdec a k) s) (hm : exec (.fdec a m) s' = exec (.fdec a k) s')
    (ht : exec (.fdec a n) s = .next t) (ht' : exec (.fdec a m) s' = .next t') :
    SameAnswer s t s' t' := by
  obtain ⟨e, -, he⟩ := exec_hasEffect (.fdec a k) s
  rw [hn, he s (.refl _ s)] at ht
  rw [hm, he s' ⟨hcfg, hb, nofun⟩] at ht'
  cases ht
  cases ht'
  exact ⟨e.apply_out s' s, e.events, e.apply_errlog s, e.apply_errlog s'⟩

/-- FDEC logs nothing when it compares no checksum, or only a matching one of the header. -/
theorem exec_fdec_errlog (h : exec (.fdec a n) s = .next t)
    (hu : s.byteAt a.toNat = sof → 5 ≤ n.toNat →
      s.HeaderMatches a.toNat ∧ n.toNat < 9 + declaredLength s a.toNat) : t.errlog = s.errlog := by
  rcases execFdec_cases h with ⟨-, rfl⟩ | ⟨-, -, rfl⟩ | ⟨-, -, -, -, rfl⟩ | ⟨-, hsof, h5, hh, -⟩ |
    ⟨-, -, -, -, -, rfl⟩ | ⟨-, hsof, -, hL, -⟩ | ⟨-, -, -, -, -, rfl⟩
  case inr.inr.inr.inl => exact absurd (hu hsof h5).1 hh
  case inr.inr.inr.inr.inr.inl => exact absurd (hu hsof (by omega)).2 (by omega)
  all_goals rfl

theorem AgreeOn.mono {base len k : Nat} (h : AgreeOn s s' base len) (hk : k ≤ len) :
    AgreeOn s s' base k :=
  fun x hlo hhi => h x hlo (by omega)

theorem AgreeOn.declaredLength {A : Nat} (h : AgreeOn s s' A 5) :
    declaredLength s' A = declaredLength s A := by
  rw [declaredLength_eq, declaredLength_eq, h.byteAt (by omega) (by omega),
    h.byteAt (by omega) (by omega)]

theorem AgreeOn.headerMatches {A : Nat} (h : AgreeOn s s' A 5) (hcfg : s.cfg = s'.cfg) :
    s'.HeaderMatches A ↔ s.HeaderMatches A := by
  rw [State.HeaderMatches, State.HeaderMatches, h.memRead_le (by omega),
    h.byteAt (by omega) (by omega), hcfg]

theorem exists_word {k : Nat} (hk : k ≤ n.toNat) : ∃ w : Word, w.toNat = k :=
  ⟨BitVec.ofNat 32 k, (BitVec.toNat_ofNat _ _).trans (Nat.mod_eq_of_lt (hk.trans_lt n.isLt))⟩

/-- Two FDEC over a header, of which both take the same side of the declared length that `k` bytes
take, read these `k` bytes alone (R149 to R151). -/
theorem sameAnswer_of_header {k : Nat} (hcfg : s.cfg = s'.cfg) (hr : s.inRange a.toNat n.toNat)
    (hr' : s.inRange a.toNat m.toNat) (hb : AgreeOn s s' a.toNat k) (h5 : 5 ≤ k)
    (hkn : k ≤ n.toNat) (hkm : k ≤ m.toNat)
    (hL : s.HeaderMatches a.toNat →
      (n.toNat < 9 + declaredLength s a.toNat ↔ k < 9 + declaredLength s a.toNat) ∧
      (m.toNat < 9 + declaredLength s a.toNat ↔ k < 9 + declaredLength s a.toNat))
    (ht : exec (.fdec a n) s = .next t) (ht' : exec (.fdec a m) s' = .next t') :
    SameAnswer s t s' t' := by
  obtain ⟨k, rfl⟩ := exists_word hkn
  have hb5 := hb.mono h5
  have hrk : s.inRange a.toNat k.toNat := by rw [State.inRange] at *; omega
  refine sameAnswer_of_agreeOn hcfg hb
    (exec_fdec_congr hr hrk (by omega) (by omega) fun _ hh => (hL hh).1)
    (exec_fdec_congr (by rwa [State.inRange, ← hcfg]) (by rwa [State.inRange, ← hcfg]) (by omega)
      (by omega) fun _ hh => ?_) ht ht'
  rw [hb5.declaredLength]
  exact (hL ((hb5.headerMatches hcfg).1 hh)).2

/-- Settles O28: without a header the first byte decides, behind it `sameAnswer_of_header` with the 5
bytes of the header or the whole declared frame. -/
theorem fdecReadsNoFurtherThanItTrusts : Obligations.FdecReadsNoFurtherThanItTrusts := by
  intro a n s s' t t' hcfg hr ht
  have hr' : s'.inRange a.toNat n.toNat := by rwa [State.inRange, ← hcfg]
  simp only [← declaredLength_eq s a.toNat]
  refine ⟨fun h5 hb ht' => ?_, fun hs hb ht' => ?_, fun h5 hh hb ht' => ?_,
    fun h5 hh hL hb ht' => ?_, fun m hh hL hm hrm hb ht' => ?_⟩
  · obtain ⟨k, hk⟩ := exists_word (n := n) (Nat.min_le_left n.toNat 1)
    have hagree : AgreeOn s s' a.toNat k.toNat := fun x hlo hhi => by
      obtain rfl : x = a.toNat := by omega
      exact (hb (by omega)).symm
    have hprefix (u : State) (hu : u.inRange a.toNat n.toNat) :
        exec (.fdec a n) u = exec (.fdec a k) u :=
      exec_fdec_congr hu (by rw [State.inRange] at *; omega) (by omega) (by omega)
        fun h => absurd h (by omega)
    exact (sameAnswer_of_agreeOn hcfg hagree (hprefix s hr) (hprefix s' hr') ht
      ht').of_nothing_logged (exec_fdec_errlog ht fun _ h => absurd h (by omega))
  · cases (exec_fdec_rejSof hr (.inr hs)).symm.trans ht
    cases (exec_fdec_rejSof hr' (.inr (hb ▸ hs))).symm.trans ht'
    exact ⟨rfl, rfl, rfl⟩
  · exact sameAnswer_of_header hcfg hr hr hb le_rfl h5 h5 (absurd · hh) ht ht'
  · have hside : n.toNat < 9 + declaredLength s a.toNat ↔ 5 < 9 + declaredLength s a.toNat := by
      omega
    exact (sameAnswer_of_header hcfg hr hr hb le_rfl h5 h5 (fun _ => ⟨hside, hside⟩) ht
      ht').of_nothing_logged (exec_fdec_errlog ht fun _ _ => ⟨hh, hL⟩)
  · exact sameAnswer_of_header hcfg hr hrm hb (by omega) hL hm (fun _ => by omega) ht ht'

/-! ## FDEC of a built frame -/

/-- A 16-bit value from its bytes as numbers (R14). -/
theorem le16_eq_of_toNat {b0 b1 : Byte} {v : Half} (h0 : b0.toNat = v.toNat % 256)
    (h1 : b1.toNat = v.toNat / 256) : le16 b0 b1 = v :=
  BitVec.eq_of_toNat_eq (by rw [le16_toNat, h0, h1]; omega)

/-- What a FENC that ends `OK` responds, and the `SEQ` it leaves (R143). -/
theorem exec_fenc_ok (e : exec (.fenc h a n d) s = .next t) (hok : statusOf (.next t) = some .ok) :
    t.out = .response ⟨.ok, 9 + n, d, BitVec.ofNat 32 ((seqUsed s).toNat * 2 ^ 16)⟩ ∧
      t.seq = s.seq + 1 := by
  rcases execFenc_cases e with ⟨-, rfl⟩ | ⟨-, -, rfl⟩ | ⟨-, -, -, rfl⟩
  · cases hok
  · cases hok
  · exact ⟨by rw [State.done_out, seqWord_eq_ofNat], rfl⟩

/-- The next frame carries the next sequence number (R142). -/
theorem seqUsed_next (hseq : t.seq = s.seq + 1) (hcfg : t.cfg = s.cfg) :
    seqUsed t = seqUsed s + 1 := by
  rw [seqUsed, seqUsed, hseq, hcfg]
  split <;> rfl

/-- Settles O29: the frame that `frameLayout` finds in `BUF` meets every test of FDEC. -/
theorem frameRoundTrip : Obligations.FrameRoundTrip := by
  intro h a n d m s hn ha hm hd
  have hd' : d.toNat + 9 + n.toNat ≤ s.cfg.bufSize := by omega
  obtain ⟨t, ht, hsof, hlo, hhi, hq, hh, hidlo, hidhi, hdata, htlo, hthi⟩ :=
    frameLayout h a n d s hn ha hd'
  obtain ⟨-, -, hcfg, -⟩ := exec_keeps ht
  rw [← hcfg] at hh htlo hthi
  have hok : statusOf (.next t) = some .ok := by
    rw [← ht, exec_fenc_of_inRange hn ha (by rw [State.inRange]; omega)]
    rfl
  obtain ⟨hout, hseq⟩ := exec_fenc_ok ht hok
  have hlen : declaredLength t d.toNat = n.toNat := by
    rw [declaredLength_eq, hlo, hhi, Nat.mod_add_div]
  have htrailer : t.TrailerMatches d.toNat := by
    rw [State.TrailerMatches, hlen]
    exact (le16_eq_of_toNat htlo hthi).symm
  refine ⟨t, seqUsed s, ht, hout, ?_, hdata, fun h' a' n' d' u hu huok => ?_⟩
  · rw [exec_fdec_ok (by rwa [State.inRange, hcfg]) hsof hh.symm (by rwa [hlen]) htrailer,
      le16_eq_of_toNat hidlo hidhi, setWidth_le16, seqWord_eq_ofNat, ← BitVec.ofNat_add,
      ← declaredLength_eq, hlen, hq]
    rfl
  · obtain ⟨hout', -⟩ := exec_fenc_ok hu huok
    rw [hout', seqUsed_next hseq hcfg, BitVec.toNat_add]
    rfl

/-! ## One changed byte -/

/-- The state after the byte at `x` is changed to `b`. -/
def State.setByte (s : State) (x : Nat) (b : Byte) : State := s.memWrite x [b]

@[simp] theorem State.setByte_cfg (s : State) (x : Nat) (b : Byte) : (s.setByte x b).cfg = s.cfg :=
  rfl

theorem State.byteAt_setByte_same (s : State) (x : Nat) (b : Byte) : (s.setByte x b).byteAt x = b :=
  s.byteAt_memWrite_inside x (i := 0) rfl

theorem State.byteAt_setByte_ne (s : State) {x y : Nat} (b : Byte) (hy : y ≠ x) :
    (s.setByte x b).byteAt y = s.byteAt y :=
  s.byteAt_memWrite_outside (by rw [List.length_singleton]; omega)

/-- A changed byte inside a range changes exactly one byte of what is read from it (P2 of R101). -/
theorem State.memRead_setByte_inside (s : State) {addr len i : Nat} {b : Byte} (hi : i < len)
    (hb : b ≠ s.byteAt (addr + i)) :
    OneByteChanged (s.memRead addr len) ((s.setByte (addr + i) b).memRead addr len) := by
  refine ⟨i, b, by simpa using hi, ?_, List.ext_getElem? fun l => ?_⟩
  · rw [State.getElem?_memRead, if_pos hi]
    exact fun he => hb (Option.some.inj he).symm
  · rw [List.getElem?_set, State.getElem?_memRead, State.getElem?_memRead, State.length_memRead]
    by_cases hl : i = l
    · subst hl
      simp [hi, State.byteAt_setByte_same]
    · rw [State.byteAt_setByte_ne s b (by omega), if_neg hl]

/-- A byte changed after a range leaves the range as it was. -/
theorem State.agreeOn_setByte (s : State) {addr len x : Nat} (b : Byte) (hx : addr + len ≤ x) :
    AgreeOn s (s.setByte x b) addr len :=
  fun _ _ _ => (s.byteAt_setByte_ne b (by omega)).symm

section
variable {A i : Nat} {b : Byte} (hd : ChecksumsDetect s.cfg) (hb : b ≠ s.byteAt (A + i))
include hd hb

/-- One changed byte of a header or of its checksum is detected, by P2 of R101 (R157). -/
theorem not_headerMatches_setByte (hh : s.HeaderMatches A) (hi : i ≤ 4) :
    ¬ (s.setByte (A + i) b).HeaderMatches A := by
  rw [State.HeaderMatches, State.setByte_cfg]
  obtain h4 | rfl := Nat.lt_or_eq_of_le hi
  · rw [s.byteAt_setByte_ne b (by omega), ← hh]
    exact hd.byte8 _ _ (s.length_memRead A 4) (s.memRead_setByte_inside h4 hb)
  · rw [(s.agreeOn_setByte b le_rfl).memRead_le le_rfl, hh, s.byteAt_setByte_same]
    exact hb.symm

/-- One changed byte of a frame behind its header is detected, by P2 of R101 (R157). -/
theorem not_trailerMatches_setByte (ht : s.TrailerMatches A) (h5 : 5 ≤ i)
    (hi : i < 9 + declaredLength s A) : ¬ (s.setByte (A + i) b).TrailerMatches A := by
  have hlt : declaredLength s A < 2 ^ 16 := BitVec.isLt _
  rw [State.TrailerMatches, State.setByte_cfg,
    (s.agreeOn_setByte b (Nat.add_le_add_left h5 A)).declaredLength]
  by_cases hin : i < 7 + declaredLength s A
  · rw [s.byteAt_setByte_ne b (by omega), s.byteAt_setByte_ne b (by omega), ← ht]
    exact hd.byte16 _ _ (by rw [State.length_memRead]; omega) (by rw [State.length_memRead]; omega)
      (s.memRead_setByte_inside hin hb)
  · rw [(s.agreeOn_setByte b (by omega)).memRead_le le_rfl, ht, le16_inj]
    rintro ⟨hlo, hhi⟩
    obtain rfl | rfl : i = 7 + declaredLength s A ∨ i = 8 + declaredLength s A := by omega
    · rw [← Nat.add_assoc, s.byteAt_setByte_same] at hlo
      exact hb (by rw [← hlo, Nat.add_assoc])
    · rw [← Nat.add_assoc, s.byteAt_setByte_same] at hhi
      exact hb (by rw [← hhi, Nat.add_assoc])

end

/-- Settles O30: the changed byte leaves every test before its offset as it was, and fails the one it
is part of. -/
theorem oneChangedByteIsRejected : Obligations.OneChangedByteIsRejected := by
  intro s x n i b hc hok hn hi hb s' q'
  obtain ⟨hr, hsof, hh, hL, ht⟩ := statusOf_exec_fdec_eq_ok.1 hok
  rw [← declaredLength_eq] at hn
  have hr' : s'.inRange x.toNat n.toNat := hr
  have hsof' (h0 : i ≠ 0) : s'.byteAt x.toNat = sof :=
    (s.byteAt_setByte_ne b (by omega)).trans hsof
  split_ifs with h0 h4
  · subst h0
    have hstart : s'.byteAt x.toNat = b := s.byteAt_setByte_same (x.toNat + 0) b
    exact exec_fdec_rejSof hr' (.inr (hstart.trans_ne (hb.trans_eq hsof)))
  · rw [exec_fdec_rejCrc8 hr' (hsof' h0) (by omega)
      (not_headerMatches_setByte hc.detect hb hh h4), seqWord_eq_ofNat]
    rfl
  · have hagree : AgreeOn s s' x.toNat 5 := s.agreeOn_setByte b (by omega)
    rw [exec_fdec_rejCrc16 hr' (hsof' h0) ((hagree.headerMatches rfl).2 hh)
      (by rwa [hagree.declaredLength])
      (not_trailerMatches_setByte hc.detect hb ht (by omega) (hn ▸ hi)), seqWord_eq_ofNat]
    rfl

end Sys2Proof.Machine
end

section
/-!
PROOFS. The outcomes of a command (R205, R206, R210, R247): which check decides its status, which
statuses an operation has, what a command that does not end `OK` leaves; and the actions of the host
(R222).
-/

namespace Sys2Proof.Machine

variable {i : Instr} {s t : State} {c : Wide}

/-! ## The status -/

/-- A next state that ends `OK`, or that is a refusal of the whole command (R202). -/
def OkOrRaised (s t : State) : Prop :=
  statusOf (.next t) = some .ok ∨ ∃ status, isInterfaceError status = true ∧ t = s.raise status

/-- CRC8, CRC16, VCRC8 and VCRC16 make the range check alone (R105 to R108). -/
theorem okOrRaised_of_read {fits : Prop} {v0 v1 v2 : Word}
    (h : ¬ fits ∧ t = s.raise .errRange ∨ fits ∧ t = s.done .ok v0 v1 v2) : OkOrRaised s t := by
  rcases h with ⟨-, rfl⟩ | ⟨-, rfl⟩
  · exact .inr ⟨_, rfl, rfl⟩
  · exact .inl rfl

/-- An instruction other than FDEC has no rejection (R206). -/
theorem exec_okOrRaised (hi : ∀ a n, i ≠ .fdec a n) (h : exec i s = .next t) : OkOrRaised s t := by
  cases i with
  | crc8 a n => exact okOrRaised_of_read (execCrc8_cases h)
  | crc16 a n => exact okOrRaised_of_read (execCrc16_cases h)
  | vcrc8 a n => exact okOrRaised_of_read (execVcrc8_cases h)
  | vcrc16 a n => exact okOrRaised_of_read (execVcrc16_cases h)
  | getbits a _ w =>
    rcases execGetbits_cases h with ⟨-, rfl⟩ | ⟨-, -, rfl⟩ | ⟨-, -, rfl⟩
    · exact .inr ⟨_, rfl, rfl⟩
    · exact .inr ⟨_, rfl, rfl⟩
    · exact .inl rfl
  | setbits v a _ w =>
    rcases execSetbits_cases h with ⟨-, rfl⟩ | ⟨-, -, rfl⟩ | ⟨-, -, rfl⟩
    · exact .inr ⟨_, rfl, rfl⟩
    · exact .inr ⟨_, rfl, rfl⟩
    · exact .inl rfl
  | getbytes a n d | setbytes a n d =>
    rcases copyBytes_cases h with ⟨-, rfl⟩ | ⟨-, -, rfl⟩
    · exact .inr ⟨_, rfl, rfl⟩
    · exact .inl rfl
  | fenc _ a n d =>
    rcases execFenc_cases h with ⟨-, rfl⟩ | ⟨-, -, rfl⟩ | ⟨-, -, -, rfl⟩
    · exact .inr ⟨_, rfl, rfl⟩
    · exact .inr ⟨_, rfl, rfl⟩
    · exact .inl rfl
  | fdec a n => exact absurd rfl (hi a n)

/-- An instruction other than FDEC that passes the checks of R205 ends `OK`. -/
theorem statusOf_exec_eq_ok (hf : i.WellFormed) (hr : FitsBuf i s) (hi : ∀ a n, i ≠ .fdec a n) :
    statusOf (exec i s) = some .ok := by
  obtain ⟨t, ht⟩ := exec_next i s
  rcases exec_okOrRaised hi ht with hok | ⟨status, he, rfl⟩
  · rw [ht, hok]
  · have hst : statusOf (exec i s) = some status := by rw [ht]; rfl
    rcases failed_check_of_isInterfaceError hst he with ⟨-, hf'⟩ | ⟨-, hr'⟩
    · exact absurd hf hf'
    · exact absurd hr hr'

/-- The status of an FDEC in range: the first test of R147 that fails decides it (R205). -/
theorem statusOf_exec_fdec {a n : Word} (hr : s.inRange a.toNat n.toNat) :
    statusOf (exec (.fdec a n) s) = some (
      if n.toNat = 0 ∨ s.byteAt a.toNat ≠ sof then .rejSof
      else if n.toNat < 5 then .rejTrunc
      else if ¬ s.HeaderMatches a.toNat then .rejCrc8
      else if n.toNat < 9 + declaredLength s a.toNat then .rejTrunc
      else if ¬ s.TrailerMatches a.toNat then .rejCrc16
      else .ok) := by
  split_ifs with hs h5 hh hL ht
  · rw [exec_fdec_rejSof hr (by rwa [Nat.lt_one_iff]), statusOf_next_done]
  all_goals
    obtain ⟨h0, hsof⟩ := not_or.1 hs
    replace hsof := not_not.1 hsof
  · rw [exec_fdec_short hr hsof (by omega) h5, statusOf_next_done]
  · rw [exec_fdec_rejTrunc hr hsof (by omega) hh hL, statusOf_next_done]
  · rw [exec_fdec_ok hr hsof hh (Nat.not_lt.1 hL) ht, statusOf_next_done]
  · rw [exec_fdec_rejCrc16 hr hsof hh (Nat.not_lt.1 hL) ht, statusOf_next_done]
  · rw [exec_fdec_rejCrc8 hr hsof (by omega) hh, statusOf_next_done]

/-- A word that selects no operation ends with `ERR_OP` (R67). -/
theorem issue_of_no_instr (h : ∀ i, decode c ≠ .ok i) : issue c s = .next (s.raise .errOp) := by
  rcases hd : decode c with e | i
  · exact issue_of_illegal (decode_illegal.1 ⟨e, hd⟩)
  · exact absurd hd (h i)

/-- Settles O35: the three refusals in their order, then `OK`, or for FDEC the tests of R147. -/
theorem priorityOfChecks : Obligations.PriorityOfChecks := by
  intro s c
  refine ⟨fun hd => ?_, fun i hd hf => ?_, fun i hd hf hr => ?_, fun i hd hf hr hi => ?_,
    fun a n hd hr => ?_⟩
  · rw [issue_of_no_instr hd]
    rfl
  · rw [issue_of_decode hd, exec_of_not_wellFormed hf]
    rfl
  · rw [issue_of_decode hd, exec_of_not_fitsBuf hf hr]
    rfl
  · rw [issue_of_decode hd, statusOf_exec_eq_ok hf hr hi]
  · rw [issue_of_decode hd, ← declaredLength_eq]
    exact statusOf_exec_fdec hr.1

/-! ## The table of R206 -/

theorem ok_mem_possibleStatuses (i : Instr) : .ok ∈ possibleStatuses i := by
  cases i <;> simp [possibleStatuses]

theorem errRange_mem_possibleStatuses (i : Instr) : .errRange ∈ possibleStatuses i := by
  cases i <;> simp [possibleStatuses]

/-- `ERR_ARG` is marked for every operation that has an illegal field value (R68). -/
theorem errArg_mem_possibleStatuses (hf : ¬ i.WellFormed) : .errArg ∈ possibleStatuses i := by
  cases i with
  | getbits _ _ _ | setbits _ _ _ _ | fenc _ _ _ _ => simp [possibleStatuses]
  | _ => exact absurd trivial hf

/-- Settles O36: a failed check ends with its error, and past the checks FDEC ends with one of its own
statuses and every other operation with `OK`. -/
theorem noOtherStatuses : Obligations.NoOtherStatuses := by
  intro i s
  by_cases hf : i.WellFormed
  case neg => exact ⟨.errArg, by rw [exec_of_not_wellFormed hf]; rfl, errArg_mem_possibleStatuses hf⟩
  by_cases hr : FitsBuf i s
  case neg =>
    exact ⟨.errRange, by rw [exec_of_not_fitsBuf hf hr]; rfl, errRange_mem_possibleStatuses i⟩
  by_cases hi : ∀ a n, i ≠ .fdec a n
  · exact ⟨.ok, statusOf_exec_eq_ok hf hr hi, ok_mem_possibleStatuses i⟩
  · push Not at hi
    obtain ⟨a, n, rfl⟩ := hi
    refine ⟨_, statusOf_exec_fdec hr.1, ?_⟩
    split_ifs <;> simp [possibleStatuses]

/-! ## A command that does not end `OK` -/

theorem eventsOf_of_isInterfaceError {status : Status} (he : isInterfaceError status = true)
    (q : Byte) : eventsOf status q = [] := by
  obtain ⟨-, hkind⟩ := ne_ok_and_eventKindOf_of_isInterfaceError he
  rw [eventsOf, hkind]
  rfl

/-- A refusal is the response, with no event (R202, R204). -/
theorem State.raise_eq_of_isInterfaceError {status : Status} (s : State)
    (he : isInterfaceError status = true) (q : Byte) :
    s.raise status = { s with
      out := (s.raise status).out, errlog := s.errlog ++ eventsOf status q } := by
  rw [eventsOf_of_isInterfaceError he, List.append_nil]
  rfl

/-- A command word that does not end `OK` changes the response and, by the events of its status,
`ERRLOG` (R204, R210). -/
theorem issue_eq_of_ne_ok {status : Status} (h : issue c s = .next t)
    (hst : statusOf (.next t) = some status) (hok : status ≠ .ok) :
    t = { s with
      out := t.out
      errlog := s.errlog ++ eventsOf status (s.byteAt ((aField c).toNat + 3)) } := by
  rcases issue_cases h with ⟨i, hd, hi⟩ | ⟨-, rfl⟩
  · by_cases hfdec : ∀ a n, i ≠ .fdec a n
    · rcases exec_okOrRaised hfdec hi with hok' | ⟨status', he, rfl⟩
      · exact absurd (Option.some.inj (hst.symm.trans hok')) hok
      · obtain rfl : status' = status := Option.some.inj hst
        exact s.raise_eq_of_isInterfaceError he _
    · push Not at hfdec
      obtain ⟨a, n, rfl⟩ := hfdec
      obtain rfl := aField_of_decode_fdec hd
      obtain ⟨hframe, status', hst', hlog⟩ := exec_fdec_frame hi
      obtain rfl : status' = status := Option.some.inj (hst'.symm.trans hst)
      rwa [← hlog]
  · obtain rfl : .errOp = status := Option.some.inj hst
    exact s.raise_eq_of_isInterfaceError rfl _

/-- Settles O37: the events of a status are those that R204 gives the two checksum rejections. -/
theorem nonOkChangesNothing : Obligations.NonOkChangesNothing := by
  intro s t c r h hout hok
  have hst : statusOf (.next t) = some r.status := by rw [statusOf, hout]
  have ht := issue_eq_of_ne_ok h hst hok
  have hlog : t.errlog = s.errlog ++ eventsOf r.status (s.byteAt ((aField c).toNat + 3)) :=
    congrArg State.errlog ht
  refine ⟨?_, fun h8 => by rw [hlog, h8]; rfl, fun h16 => by rw [hlog, h16]; rfl⟩
  rw [hout, ← hlog] at ht
  split_ifs with hrej
  · exact ht
  · obtain ⟨h8, h16⟩ := not_or.1 hrej
    rwa [hlog, eventsOf_eq_nil h8 h16, List.append_nil] at ht

/-- Settles O39: every word is answered, and the host's script is left alone. -/
theorem everyCommandCompletes : Obligations.EveryCommandCompletes := by
  intro s c rest hs
  obtain ⟨t, ht, r, hout, -⟩ := issue_answers c { s with script := rest }
  exact ⟨t, r, (step_command hs).trans ht, hout, (issue_keeps ht).1⟩

/-! ## The actions of the host -/

/-- A step takes the host's next action off the script and performs it (R222). -/
theorem step_perform {action : HostAction} {rest : List HostAction}
    (hs : s.script = action :: rest) : step s = perform action { s with script := rest } := by
  rw [step, takeNext, hs]

/-- The oldest event that the host has not read (R222). -/
theorem hostErr_of_unread {e : ErrEvent} (he : (s.errlog.drop s.errRead).head? = some e) :
    hostErr s = .next { s with out := .event (some e), errRead := s.errRead + 1 } := by
  rw [List.head?_drop] at he
  rw [hostErr, he]

/-- Settles O43, action by action: the write read back and its frame, the list of bytes read, the
oldest unread event, the response of `everyCommandCompletes`, and RESET. -/
theorem hostActionsDoWhatTheySay : Obligations.HostActionsDoWhatTheySay := by
  refine ⟨fun s addr bytes rest hs => ⟨fun hr => ?_, fun hr => ?_⟩,
    fun s addr n rest hs => ⟨fun hr => ?_, fun hr => ?_⟩, fun s e rest hs he => ?_,
    fun s c rest hs => ?_, fun s rest hs => step_perform hs⟩
  · refine ⟨_, (step_perform hs).trans (if_neg (not_not.2 hr)), rfl, fun k hk => ?_, fun x hx => ?_⟩
    · have hb := List.getElem?_eq_getElem hk
      rw [hb]
      exact congrArg some (s.byteAt_memWrite_inside addr hb)
    · exact s.byteAt_memWrite_outside hx
  · exact (step_perform hs).trans (if_pos (Nat.not_le.2 hr))
  · rw [← s.memRead_eq_map_range']
    have hread : State.memRead { s with script := rest } addr n = s.memRead addr n :=
      State.memRead_congr fun _ _ => rfl
    rw [step_perform hs, ← hread]
    exact if_neg (not_not.2 hr)
  · exact (step_perform hs).trans (if_pos (Nat.not_le.2 hr))
  · rw [step_perform hs]
    exact hostErr_of_unread he
  · obtain ⟨t, r, ht, hout, -⟩ := everyCommandCompletes s c rest hs
    exact ⟨t, r, step_command hs, ht, hout⟩

end Sys2Proof.Machine
end

section
/-!
PROOFS. The action RESET (R240, R241): `BUF` after it depends on the epoch alone.
-/

namespace Sys2Proof.Machine

/-- After a RESET every byte of `BUF` is free in the new epoch: nothing stands written (R240). -/
theorem State.byteAt_resetAction (s : State) (x : Nat) :
    s.resetAction.byteAt x = Config.initByte (s.epoch + 1) x :=
  State.byteAt_of_buf_nil s.resetAction_buf x

/-- The free bytes that a step performing RESET leaves (R240). -/
theorem byteAt_of_step_reset {s t : State} {rest : List HostAction}
    (hs : s.script = .reset :: rest) (h : step s = .next t) (x : Nat) :
    t.byteAt x = Config.initByte (s.epoch + 1) x := by
  cases (step_perform hs).symm.trans h
  exact State.byteAt_resetAction { s with script := rest } x

/-- Settles O44: both runs of the last clause reach the free bytes of the same new epoch. -/
theorem resetAction : Obligations.ResetAction := by
  intro s rest hs
  have hstep : step s = .next (State.resetAction { s with script := rest }) := step_perform hs
  have hfree := byteAt_of_step_reset hs hstep
  refine ⟨_, hstep, rfl, rfl, rfl, rfl, rfl, hfree, fun s' t' hs' hepoch hstep' x => ?_⟩
  rw [byteAt_of_step_reset hs' hstep' x, hepoch, hfree x]

end Sys2Proof.Machine
end
